-- ==== Sys2Proof/Word.lean ====
section
/-! DEFINITION. The word types of RGBGS (00_scope.md R11, R14): image bytes and factors are 8 bits, the wide
intermediate of a lane is 16 bits, registers and addresses are 32 bits; all unsigned. -/

namespace Sys2Proof

/-- u8: an image byte or a fixed-point factor. -/
abbrev Byte := BitVec 8

/-- u16: the wide intermediate of one lane. -/
abbrev Half := BitVec 16

/-- u32: a control register, a command word or a byte address. -/
abbrev Word := BitVec 32

end Sys2Proof
end

