-- ==== Sys2Proof/Config.lean ====
section
/-! DEFINITION. What a build and its platform fix (00_scope.md R8 to R12, 92_eei_decisions.md "Open parameters"), and
the free values: constants without a body for what the spec leaves unspecified (93_implementation_defined.md). -/

namespace Sys2Proof

/-- STRATEGY (R9). The source's Scalar is no hardware strategy (R6 (f)). -/
inductive Strategy where
  | planar
  | interleaved
  deriving DecidableEq, Repr

/-- A run of byte addresses: `len` of them from `base`. -/
structure Span where
  base : Nat
  len : Nat
  deriving DecidableEq, Repr

/-- The parameters of a build and its platform: part (6) of the state record of 10_state.md R30. No step changes them.
`deviceMem` is the model's own: the addresses that are not the ordinary memory R88 asks a buffer to be (log 12). -/
structure Params where
  lanes : Nat
  strategy : Strategy
  csrBase : Word
  coherent : Bool
  deviceMem : List Span
  deriving DecidableEq, Repr

/-- The build of `State.reset`: the one of programs P1, P3 and P5 of 95_test_vectors.md, with a window address and a
coherent platform. DESIGN CHOICE (log 1): the spec leaves all of these open. Unsafe for a claim about `State.reset`
alone; claims over all states hold for every build. -/
def Params.reference : Params where
  lanes := 4
  strategy := .interleaved
  csrBase := 0x40000000#32
  coherent := true
  deviceMem := []

/-- The free 8-bit values (log 7): lanes the spec leaves unspecified (R195, R47, R48). Safe: nothing is known of them. -/
opaque Config.freeByte : Nat → Byte

/-- The free 16-bit values (log 7): the lanes of W outside a run (R47). Safe. -/
opaque Config.freeHalf : Nat → Half

/-- The free positions (log 7): seq.pos outside a run (R45). Safe. -/
opaque Config.freePos : Nat → Nat

/-- The free choices between a byte's old and new value (log 8, log 9): R288 and R342. Safe. -/
opaque Config.freeChoice : Nat → Bool

end Sys2Proof
end

