-- ==== Sys2Proof/Syntax.lean ====
section
/-! DEFINITION. The commands of spec/opcode_table.json, the host's accesses (30_encoding.md R110) and the host-program
notation (R120, R121). -/

namespace Sys2Proof

/-- The commands: one constructor per row of the opcode table. A command has no operand fields (R111); START takes its
operands from the control registers (R114). -/
inductive Instr where
  | nop
  | start
  deriving DecidableEq, Repr

/-- The width of a host access; only `word` reaches a register (R41). -/
inductive AccessSize where
  | byte
  | half
  | word
  deriving DecidableEq, Repr

/-- How many bytes an access touches. -/
def AccessSize.bytes : AccessSize → Nat
  | .byte => 1
  | .half => 2
  | .word => 4

/-- The eight registers of the window, in offset order (10_state.md §3). -/
inductive RegName where
  | cap
  | cmd
  | status
  | imgBase
  | bufLen
  | width
  | height
  | factor
  deriving DecidableEq, Repr

/-- One operation of the host. An access of the window is a transaction of R110; an access elsewhere is the host's own
access to system memory, and `clean` and `invalidate` are its cache maintenance (R92, R93; log 13, log 14). -/
inductive HostOp where
  | read (addr : Word) (size : AccessSize)
  | write (addr : Word) (size : AccessSize) (data : Word)
  | clean (range : Span)
  | invalidate (range : Span)
  deriving DecidableEq, Repr

/-- A channel factor as the host has it: the source's float, or one that is not a number (R140, R141). Reals are exact
rationals (R16; log 22). -/
inductive Factor where
  | nan
  | real (f : Rat)
  deriving DecidableEq, Repr

/-- One line of a host program (R120) or a pseudo-instruction (R121). -/
inductive HostLine where
  | wr32 (reg : RegName) (value : Word)
  | rd32 (reg : RegName)
  | nop
  | start
  | setfix (fr fg fb : Byte)
  | setf (r g b : Factor)
  | adjust (base len w h : Word) (r g b : Factor)
  deriving DecidableEq, Repr

end Sys2Proof
end

