-- ==== Sys2Proof/Decode.lean ====
section
/-! DEFINITION. Decoding of command words (30_encoding.md R111 to R113) and the encoder beside it. -/

namespace Sys2Proof

/-- Why a word is ILLEGAL (R112, R113): a nonzero MBZ field, or else a reserved OP. -/
inductive DecodeError where
  | nonzeroMbz (mbz : BitVec 28)
  | reservedOp (op : BitVec 4)
  deriving DecidableEq, Repr

/-- Field OP of a command word, bits [3:0] (R111). -/
def cmdOp (w : Word) : BitVec 4 := w.extractLsb' 0 4

/-- Field MBZ of a command word, bits [31:4] (R111). -/
def cmdMbz (w : Word) : BitVec 28 := w.extractLsb' 4 28

/-- R112. Total on every word; every rejection is an ILLEGAL word. -/
def decode (w : Word) : Except DecodeError Instr :=
  if cmdMbz w ≠ 0 then .error (.nonzeroMbz (cmdMbz w))
  else if cmdOp w = 0 then .ok .nop
  else if cmdOp w = 1 then .ok .start
  else .error (.reservedOp (cmdOp w))

/-- OP of a command (R111). -/
def opOf : Instr → BitVec 4
  | .nop => 0
  | .start => 1

/-- The command word of a command: MBZ zero above OP (R111). -/
def encode (i : Instr) : Word := (0 : BitVec 28) ++ opOf i

/-- The command the decoder reads from a row's bits. A command is one 32-bit word (R117), so the word is the bits
themselves, with zeros above `nbits`. -/
def decodeTableWord (nbits w : Nat) : Option Instr :=
  if w % 2 ^ nbits < 2 ^ 32 then
    match decode (BitVec.ofNat 32 (w % 2 ^ nbits)) with
    | .ok i => some i
    | .error _ => none
  else none

end Sys2Proof
end

