-- ==== Sys2Proof/Machine/State.lean ====
section
/-! DEFINITION. The state of an RGBGS system (10_state.md R30), the reasons a step can stop, and the state after reset
(70_reset_and_hazards.md R341). -/

namespace Sys2Proof.Machine

/-- seq.state (R44). -/
inductive SeqState where
  | idle
  | run
  deriving DecidableEq, Repr

/-- The errors RGBGS reports (R311). -/
inductive ErrCode where
  | shapeMismatch
  | illegalCmd
  | addrRange
  | memError
  deriving DecidableEq, Repr

/-- What a completed host operation returned: a register's word, a byte of memory, the completion of a write or of a
cache operation, or the end of a START write that reset cut short (R342: what it returns is the platform's concern, so the
constructor carries nothing). -/
inductive Response where
  | data (w : Word)
  | byte (b : Byte)
  | done
  | aborted
  deriving DecidableEq, Repr

/-- What the platform does to the block in one step: nothing, a memory error response to an access of this step
(R99), or the reset input (R340). -/
inductive Input where
  | quiet
  | memError
  | reset
  deriving DecidableEq, Repr

/-- The Sequencer's accesses in one batch (R84, R87): the bytes read and the bytes written, by rising address; or a
batch that a memory error or a reset cut short, of which only the place is recorded (log 15). -/
inductive BatchRecord where
  | batch (reads writes : List Host.Cell)
  | failed (range : Span)
  deriving DecidableEq, Repr

/-- System memory (R51, R80): the bytes that differ from what an unlisted address reads as, by rising address. -/
abbrev Memory := List Host.Cell

/-- The control registers that hold a value (R30 (1)). CAP is computed from the parameters, CMD holds none. -/
structure Csr where
  status : Word
  imgBase : Word
  bufLen : Word
  width : Word
  height : Word
  factor : Word
  deriving DecidableEq, Repr

/-- The Sequencer state (R30 (2)). -/
structure Seq where
  state : SeqState
  pos : Nat
  deriving DecidableEq, Repr

/-- The datapath registers (R30 (3)): the lane vectors and the factor table. -/
structure Datapath where
  vr : List Byte
  vg : List Byte
  vb : List Byte
  vi : List Byte
  w : List Half
  ft : List Byte
  deriving DecidableEq, Repr

/-- The host's side: host.wait (R50), and the model's own record of the host (log 3, log 13): the operations it has still to
issue, what the completed ones returned, and the maintenance it owes when COHERENT = false. -/
structure HostPort where
  wait : Bool
  queue : List HostOp
  responses : List Response
  unclean : List Span
  stale : List Span
  deriving DecidableEq, Repr

/-- The state record of R30, and below `mem` the model's own fields: the platform's schedule (log 4), the access trace
(log 15), memory when the run began (log 16) and the count of free values drawn (log 7). -/
structure State where
  params : Params
  csr : Csr
  seq : Seq
  data : Datapath
  host : HostPort
  mem : Memory
  inputs : List Input
  trace : List BatchRecord
  startMem : Memory
  draws : Nat
  deriving DecidableEq, Repr

/-- Reasons the machine stops with a fault. -/
inductive Fault where
  /-- Raised by a step while RUN with a buffer that passes the top of memory; such addresses do not exist (R80). START's
  range check (R277) lets no run reach it. Safe: it stops where the spec says nothing (log 18). -/
  | outsideMemory
  deriving DecidableEq, Repr

/-- Reasons a step has no meaning. -/
inductive Refusal where
  /-- Raised by an arm of exec with no meaning yet. Safe. -/
  | notModelled (mnemonic : String)
  /-- Raised by every step of a build outside R8's range: "a model refuses the parameter" (R254). Safe (log 17). -/
  | illegalBuild
  /-- Raised by a host access that touches the register window and is not an aligned 32-bit one: it gets a bus error and has
  no effect on any state, and "a model refuses a host program that makes such an access" (R41; log 10). Safe. -/
  | windowBusError
  /-- Raised by START when its buffer overlaps the register window (R89). Safe (log 11). -/
  | bufferOverlapsWindow
  /-- Raised by START when its buffer is not all ordinary memory (R88). Safe (log 12). -/
  | bufferOnDevice
  /-- Raised by START when COHERENT = false and the host has not cleaned a byte of the buffer it wrote (R92). Safe (log 13). -/
  | bufferNotCleaned
  /-- Raised by a host read of memory the block may have written since the host last invalidated it, COHERENT = false
  (R93). Safe (log 13). -/
  | staleRead
  /-- Raised by a host invalidate over bytes it wrote and has not cleaned, COHERENT = false (R349). Safe (log 13). -/
  | invalidateUncleaned
  /-- Raised by a host access to memory that is not ordinary, whose behaviour the spec does not give (R88). Safe (log 12). -/
  | hostDeviceAccess
  /-- Raised by a host access to system memory wider than a byte: the spec gives memory no byte order (R82). Safe (log 14). -/
  | hostMemoryWidth
  deriving DecidableEq, Repr

/-- The registers after reset (R341). -/
def Csr.atReset : Csr where
  status := 0x00000000#32
  imgBase := 0x00000000#32
  bufLen := 0x00000000#32
  width := 0x00000000#32
  height := 0x00000000#32
  factor := 0x00404040#32

/-- The Sequencer after reset: IDLE (R341); the position is unspecified, zero here. DESIGN CHOICE, unsafe (log 6). -/
def Seq.atReset : Seq where
  state := .idle
  pos := 0

/-- The datapath after reset: unspecified (R341), zero in each of `n` lanes here. DESIGN CHOICE, unsafe (log 6). -/
def Datapath.atReset (n : Nat) : Datapath where
  vr := List.replicate n 0
  vg := List.replicate n 0
  vb := List.replicate n 0
  vi := List.replicate n 0
  w := List.replicate n 0
  ft := List.replicate n 0

/-- The host with nothing issued and nothing owed (R341 for host.wait). -/
def HostPort.atReset : HostPort where
  wait := false
  queue := []
  responses := []
  unclean := []
  stale := []

/-- A system of build `p` right after reset (R341), with no host operation to issue and nothing in memory listed. -/
def State.resetOf (p : Params) : State where
  params := p
  csr := Csr.atReset
  seq := Seq.atReset
  data := Datapath.atReset p.lanes
  host := HostPort.atReset
  mem := []
  inputs := []
  trace := []
  startMem := []
  draws := 0

/-- The machine right after reset: `State.resetOf` at the reference build (log 1). -/
def State.reset : State := State.resetOf Params.reference

end Sys2Proof.Machine
end

