-- ==== Sys2Proof/Machine/Flags.lean ====
section
/-! DEFINITION. The flags: STATUS.DONE, STATUS.ERR and STATUS.ERRCODE (10_state.md R35, R52; 60_exceptions.md R311). -/

namespace Sys2Proof.Machine

/-- The error codes of R311. -/
def ErrCode.toNat : ErrCode → Nat
  | .shapeMismatch => 1
  | .illegalCmd => 2
  | .addrRange => 3
  | .memError => 4

/-- STATUS.DONE, bit [0]. -/
def statusDone (w : Word) : Bool := w.getLsbD 0

/-- STATUS.ERR, bit [1]. -/
def statusErr (w : Word) : Bool := w.getLsbD 1

/-- STATUS.ERRCODE, bits [7:4]. -/
def statusErrCode (w : Word) : Nat := (w.extractLsb' 4 4).toNat

/-- What START clears STATUS to (R274). -/
def clearedStatus : Word := 0x00000000#32

/-- STATUS with DONE set (R279). -/
def withDone (w : Word) : Word := w ||| 0x00000001#32

/-- What `raise Error(code)` writes to STATUS: `(code << 4) | 0x2` (R276). -/
def errorStatus (c : ErrCode) : Word := (BitVec.ofNat 32 c.toNat <<< 4) ||| 0x00000002#32

end Sys2Proof.Machine
end

