-- ==== Sys2Proof/Machine/Operands.lean ====
section
/-! DEFINITION. How operands are assembled from register fields (30_encoding.md R114 to R116, 10_state.md R33, R40), and
the counts a run computes from them. Every operand is an unsigned natural; none is extended, scaled or shifted. -/

namespace Sys2Proof.Machine

/-- B, the byte address of byte 0 of the image (R114). -/
def imageBase (s : State) : Nat := s.csr.imgBase.toNat

/-- L, the buffer length in bytes (R114). -/
def bufferLen (s : State) : Nat := s.csr.bufLen.toNat

/-- P = WIDTH * HEIGHT, exact (R39, R114). -/
def pixelProduct (s : State) : Nat := s.csr.width.toNat * s.csr.height.toNat

/-- P as a planar run has it: L / 3 (43_planar.md), the same number once validation has passed. -/
def pixelCount (s : State) : Nat := bufferLen s / 3

/-- Field `c` of a FACTOR word: FR [7:0], FG [15:8], FB [23:16] (R40); F_c is the field of channel c. -/
def factorField (w : Word) (c : Nat) : Byte := w.extractLsb' (8 * c) 8

/-- F_c, the fixed-point factor of channel `c` (R114). -/
def channelFactor (s : State) (c : Nat) : Byte := factorField s.csr.factor c

/-- What FACTOR stores of one field written: `min(w, 128)` (R40). -/
def clampFactor (f : Byte) : Byte := if f.toNat ≤ 128 then f else 128

/-- The word {0x00, FB, FG, FR} (R115). -/
def factorWord (fr fg fb : Byte) : Word := (0 : Byte) ++ fb ++ fg ++ fr

/-- What FACTOR holds after a write of `w` (R40): each field clamped, bits [31:24] zero. -/
def storedFactor (w : Word) : Word :=
  factorWord (clampFactor (factorField w 0)) (clampFactor (factorField w 1)) (clampFactor (factorField w 2))

/-- CAP.STRATEGY's codes (R33). -/
def strategyCode : Strategy → Nat
  | .planar => 1
  | .interleaved => 2

/-- CAP: LANES [15:0], STRATEGY [17:16], zeros above (R33). -/
def capWord (p : Params) : Word :=
  (0 : BitVec 14) ++ BitVec.ofNat 2 (strategyCode p.strategy) ++ BitVec.ofNat 16 p.lanes

/-- The active count of a batch with `remaining` elements left (R191). -/
def activeCount (n remaining : Nat) : Nat := min n remaining

/-- S, the aligned stride (R240). -/
def alignedStride (n : Nat) : Nat := n / 3 * 3

/-- ceil_div(a, b) (R15). -/
def ceilDiv (a b : Nat) : Nat := (a + b - 1) / b

/-- Where seq.pos ends a run: P under PLANAR, L under INTERLEAVED (R283). -/
def runEnd (s : State) : Nat :=
  match s.params.strategy with
  | .planar => pixelCount s
  | .interleaved => bufferLen s

/-- How far one batch advances seq.pos: N pixels under PLANAR, S bytes under INTERLEAVED (R45). -/
def batchAdvance (p : Params) : Nat :=
  match p.strategy with
  | .planar => p.lanes
  | .interleaved => alignedStride p.lanes

/-- How many batches a run makes (R351). -/
def batchCount (s : State) : Nat := ceilDiv (runEnd s) (batchAdvance s.params)

end Sys2Proof.Machine
end

