-- ==== Sys2Proof/WellFormed.lean ====
section
/-! DEFINITION. The syntactic checks: of a command (30_encoding.md R111) and of a build (00_scope.md R8, 92_eei_decisions.md
"Open parameters"). -/

namespace Sys2Proof

/-- Every command is well formed: it has no operand that could be out of range (R111). -/
def Instr.wellFormed : Instr → Bool
  | .nop => true
  | .start => true

/-- R8: the least legal lane count of a strategy. -/
def Strategy.minLanes : Strategy → Nat
  | .planar => 1
  | .interleaved => 3

/-- The legal builds: R8's range of N for the strategy, and a window that is aligned and inside the address space. -/
def Params.wellFormed (p : Params) : Bool :=
  decide (p.strategy.minLanes ≤ p.lanes) && decide (p.lanes ≤ 65535) &&
    decide (p.csrBase.toNat % 4 = 0) && decide (p.csrBase.toNat + 32 ≤ 2 ^ 32)

end Sys2Proof
end

