-- ==== Sys2Proof/Machine/Ops.lean ====
section
/-! DEFINITION. The named operations over memory, registers, address spans and the command in progress: every read and
write goes through these, and every error through `raiseError` (45_commands.md R276). -/

namespace Sys2Proof.Machine

/-! ### Memory (20_memory.md R80, R84) -/

/-- What an address that memory does not list reads as. The spec leaves the initial content to the host and the platform
(R51); zero here. DESIGN CHOICE, unsafe (log 5). -/
def unlistedByte : Byte := 0

/-- MemRead(a, 1) (R18). -/
def Memory.read : Memory → Nat → Byte
  | [], _ => unlistedByte
  | (b, v) :: m, a => if a = b then v else Memory.read m a

/-- A byte put before memory, unless it is what an unlisted address reads as. -/
def Memory.put (a : Nat) (v : Byte) (m : Memory) : Memory :=
  if v = unlistedByte then m else (a, v) :: m

/-- MemWrite(a, 1, v) (R18), keeping the canonical form. -/
def Memory.write : Memory → Nat → Byte → Memory
  | [], a, v => Memory.put a v []
  | (b, u) :: m, a, v =>
    if a < b then Memory.put a v ((b, u) :: m)
    else if a = b then Memory.put a v m
    else (b, u) :: Memory.write m a v

/-- The canonical form from an address up: addresses strictly rising below 2^32, no entry an unlisted byte. -/
def Memory.wfFrom : Nat → Memory → Bool
  | _, [] => true
  | lo, (b, v) :: m => decide (lo ≤ b) && decide (b < 2 ^ 32) && decide (v ≠ unlistedByte) && Memory.wfFrom (b + 1) m

/-- The canonical form of memory. -/
def Memory.wf (m : Memory) : Bool := Memory.wfFrom 0 m

/-- The `n` bytes from `base`, by rising address. -/
def Memory.readBytes (m : Memory) (base n : Nat) : List Byte :=
  (List.range n).map fun k => m.read (base + k)

/-- The cells that `vs` fills from `base`. -/
def cellsFrom (base : Nat) : List Byte → List Host.Cell
  | [] => []
  | v :: vs => (base, v) :: cellsFrom (base + 1) vs

/-- Write each cell in turn. -/
def Memory.writeCells (m : Memory) : List Host.Cell → Memory
  | [] => m
  | (a, v) :: cs => Memory.writeCells (m.write a v) cs

/-- Write `vs` from `base` up. -/
def Memory.writeBytes (m : Memory) (base : Nat) (vs : List Byte) : Memory :=
  m.writeCells (cellsFrom base vs)

/-! ### Address spans -/

/-- Do two spans share an address? An empty span shares none. -/
def spanMeets (a b : Span) : Bool :=
  decide (max a.base b.base < min (a.base + a.len) (b.base + b.len))

/-- Does a span share an address with any of `l`? -/
def spanMeetsAny (a : Span) (l : List Span) : Bool := l.any (spanMeets a)

/-- What is left of `a` without the addresses of `b`: the part below and the part above. -/
def spanMinus (a b : Span) : List Span :=
  if spanMeets a b then
    [⟨a.base, b.base - a.base⟩, ⟨b.base + b.len, a.base + a.len - (b.base + b.len)⟩].filter fun c => decide (0 < c.len)
  else [a]

/-- The spans of `l` without the addresses of `b`. -/
def spansMinus (l : List Span) (b : Span) : List Span := l.flatMap fun a => spanMinus a b

/-- The register window's addresses (R10, R41). -/
def windowSpan (p : Params) : Span := ⟨p.csrBase.toNat, 32⟩

/-- The image buffer's addresses, [B, B + L) (R21). -/
def bufferSpan (s : State) : Span := ⟨imageBase s, bufferLen s⟩

/-! ### The build -/

/-- The builds that exist (R8, R254, 92_eei_decisions.md "Open parameters"). -/
def legalBuild (p : Params) : Bool := p.wellFormed

/-! ### Registers (10_state.md R33 to R42) -/

/-- The offset of a register in the window (10_state.md §3). -/
def regOffset : RegName → Nat
  | .cap => 0x00
  | .cmd => 0x04
  | .status => 0x08
  | .imgBase => 0x0C
  | .bufLen => 0x10
  | .width => 0x14
  | .height => 0x18
  | .factor => 0x1C

/-- The register at an offset of the window; `none` where no register starts. -/
def regAt : Nat → Option RegName
  | 0x00 => some .cap
  | 0x04 => some .cmd
  | 0x08 => some .status
  | 0x0C => some .imgBase
  | 0x10 => some .bufLen
  | 0x14 => some .width
  | 0x18 => some .height
  | 0x1C => some .factor
  | _ => none

/-- The address of a register: CSR_BASE + offset (R41). -/
def regAddr (p : Params) (r : RegName) : Word := p.csrBase + BitVec.ofNat 32 (regOffset r)

/-- Does the access of `size` at `addr` touch the 32-byte window? -/
def touchesWindow (p : Params) (addr : Word) (size : AccessSize) : Bool :=
  decide (addr.toNat < p.csrBase.toNat + 32) && decide (p.csrBase.toNat < addr.toNat + size.bytes)

/-- What a host access reaches. -/
inductive Target where
  | register (r : RegName)
  | busError
  | memory
  deriving DecidableEq, Repr

/-- R41: an aligned 32-bit access at CSR_BASE + offset reaches a register; any other access that touches the window gets
a bus error; an access elsewhere is to system memory (R80). -/
def accessTarget (p : Params) (addr : Word) (size : AccessSize) : Target :=
  if touchesWindow p addr size then
    if size = .word ∧ p.csrBase.toNat ≤ addr.toNat then
      match regAt (addr.toNat - p.csrBase.toNat) with
      | some r => .register r
      | none => .busError
    else .busError
  else .memory

/-- What a read of a register returns (R33 to R40, R42). No read has a side effect. -/
def readReg (r : RegName) (s : State) : Word :=
  match r with
  | .cap => capWord s.params
  | .cmd => 0x00000000#32
  | .status => s.csr.status
  | .imgBase => s.csr.imgBase
  | .bufLen => s.csr.bufLen
  | .width => s.csr.width
  | .height => s.csr.height
  | .factor => s.csr.factor

/-- What a write leaves in the registers (R36 to R40, R42): CAP and STATUS ignore it, CMD stores nothing (R34). -/
def writeReg (r : RegName) (w : Word) (c : Csr) : Csr :=
  match r with
  | .cap => c
  | .cmd => c
  | .status => c
  | .imgBase => { c with imgBase := w }
  | .bufLen => { c with bufLen := w }
  | .width => { c with width := w }
  | .height => { c with height := w }
  | .factor => { c with factor := storedFactor w }

/-! ### The command in progress -/

/-- `csr[STATUS] <- w`. -/
def State.setStatus (s : State) (w : Word) : State := { s with csr := { s.csr with status := w } }

/-- `host.wait <- b` (R50). -/
def State.setWait (s : State) (b : Bool) : State := { s with host := { s.host with wait := b } }

/-- `seq.state <- t` (R44). -/
def State.setSeqState (s : State) (t : SeqState) : State := { s with seq := { s.seq with state := t } }

/-- A host operation completes and returns `r`. -/
def State.respond (s : State) (r : Response) : State :=
  { s with host := { s.host with responses := s.host.responses ++ [r] } }

/-- `raise Error(code)`, the shared error entry (R276, R310, R312): STATUS reports the code, the Sequencer is IDLE, the
host no longer waits, and nothing else changes. There is no return from it (R316). -/
def raiseError (c : ErrCode) (s : State) : State :=
  ((s.setStatus (errorStatus c)).setSeqState .idle).setWait false

/-! ### Values the spec leaves unspecified (93_implementation_defined.md U1 to U4; log 7) -/

/-- `n` free bytes, the draws from `d` on. -/
def freeBytes (d n : Nat) : List Byte := (List.range n).map fun i => Config.freeByte (d + i)

/-- `n` free 16-bit lanes, the draws from `d` on. -/
def freeHalves (d n : Nat) : List Half := (List.range n).map fun i => Config.freeHalf (d + i)

/-- A run is over: seq.pos, the lane vectors and FT hold no value the spec gives (R45, R47, R48, R242), so each is drawn. -/
def State.unspecifyRun (s : State) : State :=
  { s with
    seq := { s.seq with pos := Config.freePos s.draws }
    data :=
      { vr := freeBytes s.draws s.params.lanes
        vg := freeBytes (s.draws + s.params.lanes) s.params.lanes
        vb := freeBytes (s.draws + 2 * s.params.lanes) s.params.lanes
        vi := freeBytes (s.draws + 3 * s.params.lanes) s.params.lanes
        w := freeHalves s.draws s.params.lanes
        ft := freeBytes (s.draws + 4 * s.params.lanes) s.params.lanes }
    draws := s.draws + 5 * s.params.lanes + 1 }

end Sys2Proof.Machine
end

