-- ==== Sys2Proof/Machine/Lanes.lean ====
section
/-! DEFINITION. The lane datapath primitives (42_lane_datapath.md R180 to R196). They have no encoding (R119). A vector is
a list of N lanes; an inactive lane's value is `fill` of its number (R195, log 7). -/

namespace Sys2Proof.Machine

/-! ### Lane arithmetic -/

/-- One lane of `widen_multiply` (R181): the product of two bytes, which 16 bits always hold. -/
def widenMultiply (v f : Byte) : Half := v.setWidth 16 * f.setWidth 16

/-- One lane of `saturating_double` (R182): `sat16(2 * w)`. -/
def saturatingDouble (w : Half) : Half := BitVec.ofNat 16 (min 65535 (2 * w.toNat))

/-- One lane of `narrow_high_byte` (R183): bits [15:8], truncating. -/
def narrowHighByte (w : Half) : Byte := w.extractLsb' 8 8

/-- The wide value of one lane when it is narrowed: widen, double, double (R184). -/
def wideGain (v f : Byte) : Half := saturatingDouble (saturatingDouble (widenMultiply v f))

/-- `gain(v, F)`, one lane of the fixed sequence (R184, R185). -/
def gain (v f : Byte) : Byte := narrowHighByte (wideGain v f)

/-- W after `gain_vec(a, f)`. -/
def wideVec (a f : List Byte) : List Half := List.zipWith wideGain a f

/-- `gain_vec(a, f)` (R184): every lane of W narrowed. -/
def gainVec (a f : List Byte) : List Byte := (wideVec a f).map narrowHighByte

/-- `broadcast_N(F)` (R190). -/
def broadcast (n : Nat) (f : Byte) : List Byte := List.replicate n f

/-! ### Lane movement -/

/-- One of `deinterleave3`'s three vectors (R188): lane `j` is byte 3j + c of `s`, where `s` has it. -/
def deinterleave (s : List Byte) (c n : Nat) (fill : Nat → Byte) : List Byte :=
  (List.range n).map fun j => s.getD (3 * j + c) (fill j)

/-- `interleave3(R, G, B, a)` (R189). -/
def interleave3 (r g b : List Byte) (a : Nat) : List Byte :=
  (List.range a).flatMap fun j => [r.getD j 0, g.getD j 0, b.getD j 0]

/-! ### Masked accesses (R191 to R194) -/

/-- `load_bytes(base, a)` into N lanes (R192); lanes from `a` on are not read (R85). -/
def loadBytes (m : Memory) (base a n : Nat) (fill : Nat → Byte) : List Byte :=
  (List.range n).map fun i => if i < a then m.read (base + i) else fill i

/-- `store_bytes(base, V, a)` (R193); lanes from `a` on are not written (R85). -/
def storeBytes (m : Memory) (base : Nat) (v : List Byte) (a : Nat) : Memory :=
  m.writeBytes base (v.take a)

/-- `load3(base, a)` (R194): the 3a bytes of the active pixels, deinterleaved into channel `c`'s vector. -/
def load3 (m : Memory) (base a c n : Nat) (fill : Nat → Byte) : List Byte :=
  deinterleave (m.readBytes base (3 * a)) c n fill

/-- `store3(base, R, G, B, a)` (R194). -/
def store3 (m : Memory) (base : Nat) (r g b : List Byte) (a : Nat) : Memory :=
  m.writeBytes base (interleave3 r g b a)

end Sys2Proof.Machine
end

