-- ==== Sys2Proof/Machine/Interleaved.lean ====
section
/-! DEFINITION. The factor table and one iteration of the interleaved strategy (44_interleaved.md R240 to R247). -/

namespace Sys2Proof.Machine

/-- FT as R241 builds it: the three factors repeated over the aligned stride, then the identity 64. -/
def factorTable (n : Nat) (factor : Word) : List Byte :=
  (List.range n).map fun i => if i < alignedStride n then factorField factor (i % 3) else 64

/-- The first byte of the iteration at seq.pos: B + o (R243). -/
def interleavedBase (s : State) : Nat := imageBase s + s.seq.pos

/-- The iteration's active count, in bytes (R243). -/
def interleavedActive (s : State) : Nat := activeCount s.params.lanes (bufferLen s - s.seq.pos)

/-- VI after the raw load (R244). Inactive lanes are free values (log 7). -/
def interleavedLoad (s : State) : List Byte :=
  loadBytes s.mem (interleavedBase s) (interleavedActive s) s.params.lanes fun i => Config.freeByte (s.draws + i)

/-- VI after the gain against FT (R245). -/
def interleavedGain (s : State) : List Byte := gainVec (interleavedLoad s) s.data.ft

/-- One iteration: raw load, gain against FT, masked store, advance by S bytes (R244 to R247). -/
def interleavedBatch (s : State) : State :=
  { s with
    mem := storeBytes s.mem (interleavedBase s) (interleavedGain s) (interleavedActive s)
    seq := { s.seq with pos := s.seq.pos + alignedStride s.params.lanes }
    data := { s.data with vi := interleavedGain s, w := wideVec (interleavedLoad s) s.data.ft }
    trace := s.trace ++
      [.batch (cellsFrom (interleavedBase s) (s.mem.readBytes (interleavedBase s) (interleavedActive s)))
        (cellsFrom (interleavedBase s) ((interleavedGain s).take (interleavedActive s)))]
    draws := s.draws + s.params.lanes }

end Sys2Proof.Machine
end

