-- ==== Sys2Proof/Machine/Planar.lean ====
section
/-! DEFINITION. One batch of the planar strategy (43_planar.md R211 to R215). -/

namespace Sys2Proof.Machine

/-- The first byte of the planar batch at seq.pos: B + 3*p0 (R211). -/
def planarBase (s : State) : Nat := imageBase s + 3 * s.seq.pos

/-- The batch's active count, in pixels (R211). -/
def planarActive (s : State) : Nat := activeCount s.params.lanes (pixelCount s - s.seq.pos)

/-- Channel `c`'s lane group after the structure load (R212). Inactive lanes are free values (log 7). -/
def planarLoad (s : State) (c : Nat) : List Byte :=
  load3 s.mem (planarBase s) (planarActive s) c s.params.lanes fun j =>
    Config.freeByte (s.draws + c * s.params.lanes + j)

/-- Channel `c`'s lane group after the gain (R213). -/
def planarGain (s : State) (c : Nat) : List Byte :=
  gainVec (planarLoad s c) (broadcast s.params.lanes (channelFactor s c))

/-- The bytes the batch stores, in pixel order (R214). -/
def planarOut (s : State) : List Byte :=
  interleave3 (planarGain s 0) (planarGain s 1) (planarGain s 2) (planarActive s)

/-- One planar batch: structure load, per-channel gain, re-interleaved store, advance by N pixels (R212 to R215). W is left
as the last channel's gain left it (log 21). -/
def planarBatch (s : State) : State :=
  { s with
    mem := store3 s.mem (planarBase s) (planarGain s 0) (planarGain s 1) (planarGain s 2) (planarActive s)
    seq := { s.seq with pos := s.seq.pos + s.params.lanes }
    data :=
      { s.data with
        vr := planarGain s 0
        vg := planarGain s 1
        vb := planarGain s 2
        w := wideVec (planarLoad s 2) (broadcast s.params.lanes (channelFactor s 2)) }
    trace := s.trace ++
      [.batch (cellsFrom (planarBase s) (s.mem.readBytes (planarBase s) (3 * planarActive s)))
        (cellsFrom (planarBase s) (planarOut s))]
    draws := s.draws + 3 * s.params.lanes }

end Sys2Proof.Machine
end

