-- ==== Sys2Proof/Machine/Sequencer.lean ====
section
/-! DEFINITION. The Sequencer's state machine (45_commands.md R278, R279, R283), and what a memory error (R288) and a
reset (70_reset_and_hazards.md R340 to R342) do. -/

namespace Sys2Proof.Machine

/-- The AdjustMap value of byte `k` of a buffer at `base` that held memory `m` at the START (R284). -/
def adjustedByte (m : Memory) (base : Nat) (factor : Word) (k : Nat) : Byte :=
  gain (m.read (base + k)) (factorField factor (k % 3))

/-- Enter RUN (R278, R283): seq.pos is 0 and FT is built under INTERLEAVED. When the platform is not coherent, the host
owes an invalidate of the buffer from here on (R93, log 13). `startMem` remembers memory for R288 and R342 (log 16). -/
def beginRun (s : State) : State :=
  { s with
    seq := { state := .run, pos := 0 }
    data :=
      match s.params.strategy with
      | .planar => s.data
      | .interleaved => { s.data with ft := factorTable s.params.lanes s.csr.factor }
    host := { s.host with stale := if s.params.coherent then s.host.stale else bufferSpan s :: s.host.stale }
    startMem := s.mem }

/-- One batch of the build's strategy (R283). -/
def runBatch (s : State) : State :=
  match s.params.strategy with
  | .planar => planarBatch s
  | .interleaved => interleavedBatch s

/-- The addresses the batch at seq.pos accesses. -/
def batchSpan (s : State) : Span :=
  match s.params.strategy with
  | .planar => ⟨planarBase s, 3 * planarActive s⟩
  | .interleaved => ⟨interleavedBase s, interleavedActive s⟩

/-- The loop has ended (R279, R280): IDLE, DONE, and the host's write completes. What the run left in the datapath is
unspecified from here on (log 7). -/
def finishRun (s : State) : State :=
  (((s.unspecifyRun.setSeqState .idle).setStatus (withDone s.csr.status)).setWait false).respond .done

/-- Memory after a run that something stopped: each byte of the buffer holds its value from before the START or its
AdjustMap value, which one being a free choice (R99, R288, R342; log 8, log 9). -/
def mixedMemory (s : State) : Memory :=
  (List.range (bufferLen s)).foldl
    (fun m k => m.write (imageBase s + k)
      (if Config.freeChoice (s.draws + k) then adjustedByte s.startMem (imageBase s) s.csr.factor k
       else s.startMem.read (imageBase s + k)))
    s.mem

/-- What a run cut short leaves in the trace: the place of the batch at seq.pos, or nothing where only the loop test was
left. Which accesses of that batch were made the spec leaves open (R99, R288, R342). DESIGN CHOICE (log 15). -/
def cutShort (s : State) : List BatchRecord :=
  if s.seq.pos < runEnd s then [.failed (batchSpan s)] else []

/-- An access of the batch at seq.pos got an error response (R99, R288): the run stops, Error(MEM_ERROR) is raised, and
the host's write completes. DEDUCED: a next state with free bytes, where R288 says "fault" (log 8). -/
def memErrorStop (s : State) : State :=
  (raiseError .memError
    (State.unspecifyRun
      { s with
        mem := mixedMemory s
        trace := s.trace ++ cutShort s
        draws := s.draws + bufferLen s })).respond .done

/-- One step of the Sequencer while RUN (R283): a batch, or the loop test that ends the run. A memory error response
reaches it only where it makes an access, that is in a batch. -/
def sequencerStep (memError : Bool) (s : State) : State :=
  if s.seq.pos < runEnd s then
    if memError then memErrorStop s else runBatch s
  else finishRun s

/-- The reset input (R340, R341): every register takes its reset value and memory is unchanged, unless a run was in
progress: then each byte of the buffer is old or new (R342), the host's outstanding write is aborted (log 9), and of the
batch cut short only the place is recorded. DESIGN CHOICE: R342 leaves open which of its accesses were made (log 15). -/
def applyReset (s : State) : State :=
  { s with
    csr := Csr.atReset
    seq := Seq.atReset
    data := Datapath.atReset s.params.lanes
    host :=
      { s.host with
        wait := false
        responses := if s.host.wait then s.host.responses ++ [.aborted] else s.host.responses }
    mem := match s.seq.state with | .idle => s.mem | .run => mixedMemory s
    trace := match s.seq.state with | .idle => s.trace | .run => s.trace ++ cutShort s
    draws := match s.seq.state with | .idle => s.draws | .run => s.draws + bufferLen s }

end Sys2Proof.Machine
end

