-- ==== Sys2Proof/Machine/Commands.lean ====
section
/-! DEFINITION. The meanings of the commands (45_commands.md R271, R273 to R278). -/

namespace Sys2Proof.Machine

/-- R271: skip. -/
def execNop (s : State) : Host.Outcome State Fault Refusal := .next s

/-- Why START has no meaning although its checks pass: the buffer overlaps the window (R89), is not all ordinary memory
(R88), or was not cleaned (R92, COHERENT = false). -/
def startRefusal (s : State) : Option Refusal :=
  if spanMeets (bufferSpan s) (windowSpan s.params) then some .bufferOverlapsWindow
  else if spanMeetsAny (bufferSpan s) s.params.deviceMem then some .bufferOnDevice
  else if s.params.coherent = false ∧ spanMeetsAny (bufferSpan s) s.host.unclean then some .bufferNotCleaned
  else none

/-- R273, the host's write of START: the host waits, STATUS is cleared (R274), the shape (R275) and then the range (R277)
are checked, and the run begins (R278). The Sequencer's steps do the rest (R283; log 2). -/
def execStart (s : State) : Host.Outcome State Fault Refusal :=
  let s' := (s.setWait true).setStatus clearedStatus
  if bufferLen s ≠ 3 * pixelProduct s then .next (raiseError .shapeMismatch s')
  else if 2 ^ 32 < imageBase s + bufferLen s then .next (raiseError .addrRange s')
  else
    match startRefusal s with
    | some r => .refused r
    | none => .next (beginRun s')

/-- R272, the response to every word that is no command. -/
def illegalCommand (s : State) : State := raiseError .illegalCmd s

end Sys2Proof.Machine
end

