-- ==== Sys2Proof/Machine/HostPort.lean ====
section
/-! DEFINITION. The host's operations: transactions of the register window (10_state.md R34, R41, R42; 45_commands.md R270),
and the host's own accesses to system memory and cache maintenance (20_memory.md R92, R93; log 13, log 14). -/

namespace Sys2Proof.Machine

/-- A CMD write completes in its own transaction unless the command leaves the host waiting (R270, R280). -/
def completeCommand : Host.Outcome State Fault Refusal → Host.Outcome State Fault Refusal
  | .next s => .next (if s.host.wait then s else s.respond .done)
  | .fault r => .fault r
  | .refused r => .refused r

/-- A host write of word `w` to CMD: `execute(decode(w))` (R270). -/
def writeCmd (w : Word) (s : State) : Host.Outcome State Fault Refusal :=
  match decode w with
  | .ok i => completeCommand (exec i s)
  | .error _ => completeCommand (.next (illegalCommand s))

/-- A host read of system memory. -/
def hostLoad (addr : Word) (size : AccessSize) (s : State) : Host.Outcome State Fault Refusal :=
  if size ≠ .byte then .refused .hostMemoryWidth
  else if spanMeetsAny ⟨addr.toNat, 1⟩ s.params.deviceMem then .refused .hostDeviceAccess
  else if s.params.coherent = false ∧ spanMeetsAny ⟨addr.toNat, 1⟩ s.host.stale then .refused .staleRead
  else .next (s.respond (.byte (s.mem.read addr.toNat)))

/-- A host write of system memory. When the platform is not coherent, the host owes a clean of the byte (R92), and its
own copy of the byte is fresh. -/
def hostStore (addr : Word) (size : AccessSize) (data : Word) (s : State) : Host.Outcome State Fault Refusal :=
  if size ≠ .byte then .refused .hostMemoryWidth
  else if spanMeetsAny ⟨addr.toNat, 1⟩ s.params.deviceMem then .refused .hostDeviceAccess
  else
    .next
      (State.respond
        { s with
          mem := s.mem.write addr.toNat (data.setWidth 8)
          host :=
            if s.params.coherent then s.host
            else
              { s.host with
                unclean := ⟨addr.toNat, 1⟩ :: s.host.unclean
                stale := spansMinus s.host.stale ⟨addr.toNat, 1⟩ } }
        .done)

/-- The host reads: a register (R42), or memory. A read of the window that reaches no register gets a bus error, has no
effect, and the program is refused (R41). -/
def hostRead (addr : Word) (size : AccessSize) (s : State) : Host.Outcome State Fault Refusal :=
  match accessTarget s.params addr size with
  | .register r => .next (s.respond (.data (readReg r s)))
  | .busError => .refused .windowBusError
  | .memory => hostLoad addr size s

/-- The host writes: a command (R34), another register, or memory. A write of the window that reaches no register gets a bus
error, has no effect, and the program is refused (R41). -/
def hostWrite (addr : Word) (size : AccessSize) (data : Word) (s : State) : Host.Outcome State Fault Refusal :=
  match accessTarget s.params addr size with
  | .register .cmd => writeCmd data s
  | .register r => .next (State.respond { s with csr := writeReg r data s.csr } .done)
  | .busError => .refused .windowBusError
  | .memory => hostStore addr size data s

/-- The host cleans its caches over a range (R92): nothing there is owed any more. -/
def hostClean (r : Span) (s : State) : Host.Outcome State Fault Refusal :=
  .next (State.respond { s with host := { s.host with unclean := spansMinus s.host.unclean r } } .done)

/-- The host invalidates its cached copies of a range (R93). Over bytes it wrote and has not cleaned the spec says nothing
of the values (R349), so that is refused. -/
def hostInvalidate (r : Span) (s : State) : Host.Outcome State Fault Refusal :=
  if s.params.coherent = false ∧ spanMeetsAny r s.host.unclean then .refused .invalidateUncleaned
  else .next (State.respond { s with host := { s.host with stale := spansMinus s.host.stale r } } .done)

/-- One operation of the host. -/
def hostOp (op : HostOp) (s : State) : Host.Outcome State Fault Refusal :=
  match op with
  | .read addr size => hostRead addr size s
  | .write addr size data => hostWrite addr size data s
  | .clean r => hostClean r s
  | .invalidate r => hostInvalidate r s

/-- The host's step while the block is IDLE: its next operation. With nothing to issue, or while its START write is
outstanding (R50), it has no move and the system keeps its state (R324; log 23). -/
def hostStep (s : State) : Host.Outcome State Fault Refusal :=
  if s.host.wait then .next s
  else
    match s.host.queue with
    | [] => .next s
    | op :: rest => hostOp op { s with host := { s.host with queue := rest } }

end Sys2Proof.Machine
end

