-- ==== Sys2Proof/Machine/System.lean ====
section
/-! DEFINITION. One step of the whole system (00_scope.md R20): the platform's input, then the Sequencer while RUN and the
host while IDLE (45_commands.md R283). -/

namespace Sys2Proof.Machine

/-- The agent whose move it is. -/
def agentStep (memError : Bool) (s : State) : Host.Outcome State Fault Refusal :=
  match s.seq.state with
  | .run => .next (sequencerStep memError s)
  | .idle => hostStep s

/-- The step's input from the platform, taken off the schedule (log 4); an empty schedule is quiet. -/
def inputStep (s : State) : Host.Outcome State Fault Refusal :=
  match s.inputs with
  | [] => agentStep false s
  | .quiet :: rest => agentStep false { s with inputs := rest }
  | .memError :: rest => agentStep true { s with inputs := rest }
  | .reset :: rest => .next (applyReset { s with inputs := rest })

/-- Is the buffer of the run in progress inside the address space? R277 makes it so for every run START begins. -/
def runInMemory (s : State) : Bool :=
  match s.seq.state with
  | .idle => true
  | .run => decide (imageBase s + bufferLen s ≤ 2 ^ 32)

/-- One step. A build that is not legal does not exist (R254, log 17); a run outside memory is a fault (log 18). -/
def systemStep (s : State) : Host.Outcome State Fault Refusal :=
  if legalBuild s.params = false then .refused .illegalBuild
  else if runInMemory s = false then .fault .outsideMemory
  else inputStep s

/-- `s` with a CMD write of the given word as the host's next operation, in a system that is IDLE and quiet. -/
def placeCommand (s : State) (w : Word) : State :=
  { s with
    seq := { s.seq with state := .idle }
    host := { s.host with wait := false, queue := .write (regAddr s.params .cmd) .word w :: s.host.queue }
    inputs := [] }

end Sys2Proof.Machine
end

