-- ==== Sys2Proof/Machine/Step.lean ====
section
/-! DEFINITION. The step, and a state whose next step issues a given command (30_encoding.md R111). -/

namespace Sys2Proof.Machine

/-- One step of the system. -/
def step (s : State) : Host.Outcome State Fault Refusal := systemStep s

/-- `s` with the command word whose bits are `w` as the host's next write to CMD: RGBGS fetches nothing (R97), so a command
comes to run only as the data of a host write (log 3). -/
def State.withFetchWord (s : State) (nbits w : Nat) : State :=
  placeCommand s (BitVec.ofNat 32 (w % 2 ^ nbits))

end Sys2Proof.Machine
end

