-- ==== Sys2Proof/Machine/Oracle.lean ====
section
/-! DEFINITION. The host-side factor encoder (40_factor_encoder.md R140, R141) and the scalar reference transform
(41_scalar_reference.md R160 to R162). Neither is a hardware operation (R163): the step uses none of this file. -/

namespace Sys2Proof.Machine

/-- `round(x)` for x >= 0: halves round away from zero (R16). -/
def roundHalfUp (x : Rat) : Int := ⌊x + 1 / 2⌋

/-- `clamp(x, lo, hi)` (R15). -/
def clampRat (x lo hi : Rat) : Rat := min hi (max lo x)

/-- `clamp` on integers, as a natural (R15). -/
def clampNat (x : Int) (hi : Nat) : Nat := (min (hi : Int) (max 0 x)).toNat

/-- `encode(f)`, the fixed-point encoding of a channel factor (R140); `encode(NaN)` is 0 (R141). -/
def encodeFactor : Factor → Nat
  | .nan => 0
  | .real f => clampNat (roundHalfUp (clampRat f 0 2 * 64)) 128

/-- The encoded factor as the byte the host writes into FACTOR (R115). -/
def encodedByte (f : Factor) : Byte := BitVec.ofNat 8 (encodeFactor f)

/-- `oracle(v, f)`, the reference value of one byte (R160). -/
def oracle (v : Byte) (f : Rat) : Nat := clampNat (roundHalfUp (v.toNat * clampRat f 0 2)) 255

/-- `oracle_image(M, B, L, f)`: what it leaves at address `a`, byte k of the buffer taking the factor of channel k mod 3
(R161, R162). -/
def oracleImage (m : Memory) (base len : Nat) (f : Nat → Rat) (a : Nat) : Byte :=
  if base ≤ a ∧ a < base + len then BitVec.ofNat 8 (oracle (m.read a) (f ((a - base) % 3))) else m.read a

/-- `AdjustMap`: what a completed START leaves at address `a` (R284). -/
def adjustMap (m : Memory) (base len : Nat) (factor : Word) (a : Nat) : Byte :=
  if base ≤ a ∧ a < base + len then adjustedByte m base factor (a - base) else m.read a

end Sys2Proof.Machine
end

