-- ==== Sys2Proof/Machine/HostProgram.lean ====
section
/-! DEFINITION. The host-program notation (30_encoding.md R120) and the pseudo-instructions (R121), as the transactions
they stand for. -/

namespace Sys2Proof.Machine

/-- A WR transaction of register `r`. -/
def wrReg (p : Params) (r : RegName) (v : Word) : HostOp := .write (regAddr p r) .word v

/-- An RD transaction of register `r`. -/
def rdReg (p : Params) (r : RegName) : HostOp := .read (regAddr p r) .word

/-- `setfix fr, fg, fb` (R121). -/
def setfixOps (p : Params) (fr fg fb : Byte) : List HostOp := [wrReg p .factor (factorWord fr fg fb)]

/-- `setf r, g, b` (R121). -/
def setfOps (p : Params) (r g b : Factor) : List HostOp := setfixOps p (encodedByte r) (encodedByte g) (encodedByte b)

/-- The transactions of one line (R120, R121). -/
def expandLine (p : Params) : HostLine → List HostOp
  | .wr32 r v => [wrReg p r v]
  | .rd32 r => [rdReg p r]
  | .nop => [wrReg p .cmd (encode .nop)]
  | .start => [wrReg p .cmd (encode .start)]
  | .setfix fr fg fb => setfixOps p fr fg fb
  | .setf r g b => setfOps p r g b
  | .adjust base len w h r g b =>
    [wrReg p .imgBase base, wrReg p .bufLen len, wrReg p .width w, wrReg p .height h] ++
      setfOps p r g b ++ [wrReg p .cmd (encode .start), rdReg p .status]

/-- How the host-side call `adjust` ends (R286, R287). -/
inductive AdjustOutcome where
  | returned
  | shapeMismatch
  | platformError
  deriving DecidableEq, Repr

/-- What the call makes of the STATUS word its last line reads (R286): it returns nothing at 0x00000001 and fails with
ShapeMismatch at ERRCODE 1; every other word has no counterpart in the source (R287). -/
def adjustOutcome (status : Word) : AdjustOutcome :=
  if status = 0x00000001#32 then .returned
  else if statusErrCode status = 1 then .shapeMismatch
  else .platformError

/-- The transactions of a host program, in order. -/
def expandProgram (p : Params) (lines : List HostLine) : List HostOp := lines.flatMap (expandLine p)

end Sys2Proof.Machine
end

