-- ==== Sys2Proof/Safety.lean ====
section
/-! DEFINITION. What claims call a good state: the invariants of the system (10_state.md R35, R40, R45 to R48, R50;
45_commands.md R283), and the host operations the spec lets a program make (R41). -/

namespace Sys2Proof.Safety

open Sys2Proof.Machine

/-- The host operations a program may make: an access that touches the window is an aligned 32-bit one (R41), and one to
system memory is one byte wide in this model (log 14). Others are refused. -/
def acceptedOp (p : Params) : HostOp → Bool
  | .read addr size | .write addr size _ =>
    if touchesWindow p addr size then decide (size = .word) && decide (addr.toNat % 4 = 0) else decide (size = .byte)
  | .clean _ => true
  | .invalidate _ => true

/-- The STATUS words the commands produce: none, DONE, and the four errors (R35, R311). -/
def legalStatus (w : Word) : Bool :=
  decide (w ∈ [0x00000000#32, 0x00000001#32, 0x00000012#32, 0x00000022#32, 0x00000032#32, 0x00000042#32])

/-- STATUS is legal, and clear while a run is in progress (R274, R279). -/
def StatusInv (s : State) : Prop :=
  legalStatus s.csr.status = true ∧ (s.seq.state = .run → s.csr.status = clearedStatus)

/-- Every field of FACTOR is in [0, 128] and bits [31:24] are zero (R40). -/
def FactorInv (s : State) : Prop :=
  (∀ c, c < 3 → (channelFactor s c).toNat ≤ 128) ∧ factorField s.csr.factor 3 = 0

/-- The host waits exactly while the Sequencer runs (R50, R280). -/
def WaitInv (s : State) : Prop := s.host.wait = true ↔ s.seq.state = .run

/-- The lane vectors and FT have N lanes (R47, R48). -/
def VectorInv (s : State) : Prop :=
  s.data.vr.length = s.params.lanes ∧ s.data.vg.length = s.params.lanes ∧ s.data.vb.length = s.params.lanes ∧
    s.data.vi.length = s.params.lanes ∧ s.data.w.length = s.params.lanes ∧ s.data.ft.length = s.params.lanes

/-- Memory, and memory as the run found it, are in canonical form. -/
def MemoryInv (s : State) : Prop := s.mem.wf = true ∧ s.startMem.wf = true

/-- How many bytes of the buffer the batches before seq.pos have finished (R45, R211, R243). -/
def doneBytes (s : State) : Nat :=
  min (bufferLen s) (match s.params.strategy with | .planar => 3 * s.seq.pos | .interleaved => s.seq.pos)

/-- A run in progress is one START began and nothing disturbed: both checks hold (R275, R277), seq.pos is a whole number of
batches (R45), FT is the built table (R241), and memory is the memory of the START with the finished bytes adjusted and
every other byte as it was (R216, R250). -/
structure RunInv (s : State) : Prop where
  shape : bufferLen s = 3 * pixelProduct s
  range : imageBase s + bufferLen s ≤ 2 ^ 32
  aligned : batchAdvance s.params ∣ s.seq.pos
  table : s.params.strategy = .interleaved → s.data.ft = factorTable s.params.lanes s.csr.factor
  image : ∀ a, s.mem.read a = adjustMap s.startMem (imageBase s) (doneBytes s) s.csr.factor a

/-- The invariant of the system. -/
structure Inv (s : State) : Prop where
  build : legalBuild s.params = true
  status : StatusInv s
  factor : FactorInv s
  wait : WaitInv s
  vectors : VectorInv s
  memory : MemoryInv s
  run : s.seq.state = .run → RunInv s

/-- What a host that may not look inside the block can tell of a state, and what its run will depend on (R32, R49, R282):
everything but the lane vectors, the free-value count, the access trace, and seq.pos and FT outside a run. -/
structure SameView (s t : State) : Prop where
  params : s.params = t.params
  csr : s.csr = t.csr
  state : s.seq.state = t.seq.state
  host : s.host = t.host
  mem : s.mem = t.mem
  inputs : s.inputs = t.inputs
  startMem : s.startMem = t.startMem
  pos : s.seq.state = .run → s.seq.pos = t.seq.pos
  table : s.seq.state = .run → s.params.strategy = .interleaved → s.data.ft = t.data.ft

/-- The host's next operation is `op`, with `rest` after it: the block is IDLE, the host does not wait, and the platform does
not assert reset in this step. -/
structure NextOp (s : State) (op : HostOp) (rest : List HostOp) : Prop where
  build : legalBuild s.params = true
  idle : s.seq.state = .idle
  free : s.host.wait = false
  queue : s.host.queue = op :: rest
  input : s.inputs.head? ≠ some .reset

/-- `s` with its next host operation taken off the queue and this step's input off the schedule. -/
def taken (s : State) (rest : List HostOp) : State :=
  { s with host := { s.host with queue := rest }, inputs := s.inputs.tail }

/-- A START issued in `s` passes both checks (R275, R277), and its buffer is one the model takes (R88, R89, R92). -/
structure Startable (s : State) : Prop where
  build : legalBuild s.params = true
  shape : bufferLen s = 3 * (s.csr.width.toNat * s.csr.height.toNat)
  range : imageBase s + bufferLen s ≤ 2 ^ 32
  buffer : startRefusal s = none

/-- The Sequencer is in a run whose buffer is inside memory, and the platform neither resets it nor answers an access of
this step with an error. -/
structure Running (s : State) : Prop where
  build : legalBuild s.params = true
  run : s.seq.state = .run
  range : imageBase s + bufferLen s ≤ 2 ^ 32
  input : s.inputs.head? = none ∨ s.inputs.head? = some .quiet

/-- The byte reads of a batch, in order; none are recorded of one cut short (log 15). -/
def recordReads : BatchRecord → List Host.Cell
  | .batch rs _ => rs
  | .failed _ => []

/-- The byte writes of a batch, in order; none are recorded of one cut short (log 15). -/
def recordWrites : BatchRecord → List Host.Cell
  | .batch _ ws => ws
  | .failed _ => []

/-- How many of the reads recorded in `l` are of address `a` (R87): every access counts, also a second one of a batch. -/
def readCount (a : Nat) (l : List BatchRecord) : Nat := ((l.flatMap recordReads).map Prod.fst).count a

/-- How many of the writes recorded in `l` are of address `a` (R87): every access counts, also a second one of a batch. -/
def writeCount (a : Nat) (l : List BatchRecord) : Nat := ((l.flatMap recordWrites).map Prod.fst).count a

/-- `u` is the end of the START issued in `s` (R279, R280, R284): memory is the AdjustMap, STATUS is DONE alone, the
Sequencer is IDLE, the host's write has completed, `n` batches were made, and every other register is as it was. -/
structure RunEnds (s u : State) (n : Nat) : Prop where
  memory : ∀ a, u.mem.read a = adjustMap s.mem (imageBase s) (bufferLen s) s.csr.factor a
  canonical : u.mem.wf = true
  csr : u.csr = { s.csr with status := 0x00000001#32 }
  idle : u.seq.state = .idle
  wait : u.host.wait = false
  responses : u.host.responses = s.host.responses ++ [.done]
  queue : u.host.queue = s.host.queue
  params : u.params = s.params
  batches : u.trace.length = s.trace.length + n

end Sys2Proof.Safety
end

