-- ==== Sys2Proof/Certificates/Slice0/Obligations.lean ====
section
/-! DEFINITION. The statements for the provers, each citing the rules of spec/ it formalises. -/

open Sys2Proof Sys2Proof.Machine Sys2Proof.Safety

/-! ### Commands: encoding -/

/-- R112, R113: command words and their decoding, the corner words of R272 and V-C-7 among them. -/
def Obligations.CommandWordsDecode : Prop :=
  decode 0x00000000#32 = .ok .nop ∧ decode 0x00000001#32 = .ok .start ∧
    decode 0x00000002#32 = .error (.reservedOp 2) ∧ decode 0x0000000F#32 = .error (.reservedOp 15) ∧
    decode 0x00000010#32 = .error (.nonzeroMbz 1) ∧ decode 0x00000011#32 = .error (.nonzeroMbz 1) ∧
    decode 0x80000001#32 = .error (.nonzeroMbz 0x8000000)

/-- R112: decoding is total, with NOP, START and ILLEGAL as its three answers. -/
def Obligations.DecodeIsTotalAndThreeWay : Prop :=
  ∀ w : Word,
    (w = 0x00000000#32 → decode w = .ok .nop) ∧ (w = 0x00000001#32 → decode w = .ok .start) ∧
      (w ≠ 0x00000000#32 → w ≠ 0x00000001#32 → ∃ e, decode w = .error e)

/-- R111, R118: each command has exactly one word. -/
def Obligations.DecodeAndEncodeAgree : Prop :=
  (∀ i : Instr, decode (encode i) = .ok i) ∧ ∀ (w : Word) (i : Instr), decode w = .ok i → encode i = w

/-- R40, R115: the fields of a FACTOR word read back, and a word whose fields are in [0, 128] is stored as it is. -/
def Obligations.FactorFieldsRoundTrip : Prop :=
  ∀ fr fg fb : Byte,
    factorField (factorWord fr fg fb) 0 = fr ∧ factorField (factorWord fr fg fb) 1 = fg ∧
      factorField (factorWord fr fg fb) 2 = fb ∧ factorField (factorWord fr fg fb) 3 = 0 ∧
      (fr.toNat ≤ 128 → fg.toNat ≤ 128 → fb.toNat ≤ 128 → storedFactor (factorWord fr fg fb) = factorWord fr fg fb)

/-! ### Commands: meaning -/

/-- R270: a host write of a command's word to CMD executes that command; the write completes in the same step unless the
command leaves the host waiting (R280). -/
def Obligations.StepRunsDecodedCommand : Prop :=
  ∀ (s : State) (w : Word) (rest : List HostOp) (i : Instr),
    NextOp s (.write (regAddr s.params .cmd) .word w) rest → decode w = .ok i →
      step s = completeCommand (exec i (taken s rest)) ∧
        (∀ t, exec i (taken s rest) = .next t →
          step s = .next (if t.host.wait then t else t.respond .done))

/-- R271: the word 0 is NOP, and NOP changes no register, no memory and no Sequencer state. -/
def Obligations.NopChangesNothing : Prop :=
  decode 0x00000000#32 = .ok .nop ∧ ∀ s : State, exec .nop s = .next s

/-- R272, R276: a word that is no command leaves STATUS = 0x22, completes its transaction and changes nothing else. -/
def Obligations.IllegalWordRaisesIllegalCmd : Prop :=
  ∀ (s : State) (w : Word) (rest : List HostOp),
    NextOp s (.write (regAddr s.params .cmd) .word w) rest → w ≠ 0x00000000#32 → w ≠ 0x00000001#32 →
      step s = .next (((taken s rest).setStatus 0x00000022#32).respond .done)

/-- R275, R276: with the shape wrong, by the exact product, START leaves STATUS = 0x12, the Sequencer IDLE and the host not
waiting, and nothing else changed: no memory access, FT not built. -/
def Obligations.StartShapeMismatch : Prop :=
  ∀ s : State, s.csr.bufLen.toNat ≠ 3 * (s.csr.width.toNat * s.csr.height.toNat) →
    exec .start s = .next (((s.setStatus 0x00000012#32).setSeqState .idle).setWait false)

/-- R277: with the shape right and the buffer past the top of memory, by the exact sum, START leaves STATUS = 0x32 and
nothing else changed; otherwise no buffer address passes 2^32 - 1 and no such error is raised. -/
def Obligations.StartAddrRange : Prop :=
  ∀ s : State, s.csr.bufLen.toNat = 3 * (s.csr.width.toNat * s.csr.height.toNat) →
    (2 ^ 32 < s.csr.imgBase.toNat + s.csr.bufLen.toNat →
      exec .start s = .next (((s.setStatus 0x00000032#32).setSeqState .idle).setWait false)) ∧
    (s.csr.imgBase.toNat + s.csr.bufLen.toNat ≤ 2 ^ 32 →
      (∀ k, k < s.csr.bufLen.toNat → s.csr.imgBase.toNat + k ≤ 2 ^ 32 - 1) ∧
        ∀ t, exec .start s = .next t → t.csr.status = 0x00000000#32)

/-- R274, R278, R283: when both checks pass, START clears STATUS, makes the host wait and enters RUN at position 0, with FT
built under INTERLEAVED and kept under PLANAR; no memory access yet and no other register changed. -/
def Obligations.StartEntersRun : Prop :=
  ∀ s : State, Startable s →
    ∃ t, exec .start s = .next t ∧ t.seq = ⟨.run, 0⟩ ∧ t.csr = { s.csr with status := 0x00000000#32 } ∧
      t.host.wait = true ∧ t.host.queue = s.host.queue ∧ t.host.responses = s.host.responses ∧ t.mem = s.mem ∧
      t.trace = s.trace ∧ t.params = s.params ∧
      (s.params.strategy = .planar → t.data = s.data) ∧
      (s.params.strategy = .interleaved → t.data = { s.data with ft := t.data.ft } ∧
        t.data.ft.length = s.params.lanes ∧
        ∀ i, i < s.params.lanes →
          t.data.ft.getD i 0 = if i < s.params.lanes / 3 * 3 then factorField s.csr.factor (i % 3) else 64)

/-- The frame of both commands: whatever the outcome, no register but STATUS, no byte of memory, no lane vector and no
parameter is changed by the command itself (R271, R315); the run is the Sequencer's. -/
def Obligations.CommandFrame : Prop :=
  ∀ (i : Instr) (s t : State), exec i s = .next t →
    t.csr.imgBase = s.csr.imgBase ∧ t.csr.bufLen = s.csr.bufLen ∧ t.csr.width = s.csr.width ∧
      t.csr.height = s.csr.height ∧ t.csr.factor = s.csr.factor ∧ (∀ a, t.mem.read a = s.mem.read a) ∧
      t.data.vr = s.data.vr ∧ t.data.vg = s.data.vg ∧ t.data.vb = s.data.vb ∧ t.data.vi = s.data.vi ∧
      t.data.w = s.data.w ∧ t.params = s.params ∧ t.trace = s.trace ∧ t.host.queue = s.host.queue ∧
      t.host.responses = s.host.responses ∧ t.host.unclean = s.host.unclean ∧ t.inputs = s.inputs ∧ t.draws = s.draws

/-- R89: a START whose checks pass is refused when its buffer shares a byte with the register window. That a failing START
is not refused is the model's reading (log 11). -/
def Obligations.BufferOverlappingWindowRefused : Prop :=
  ∀ s : State, bufferLen s = 3 * pixelProduct s → imageBase s + bufferLen s ≤ 2 ^ 32 →
    (∃ a, imageBase s ≤ a ∧ a < imageBase s + bufferLen s ∧ s.params.csrBase.toNat ≤ a ∧
      a < s.params.csrBase.toNat + 32) →
      exec .start s = .refused .bufferOverlapsWindow

/-- R88: a START whose checks pass is refused when a byte of its buffer is not ordinary memory and none is in the window.
Which memory is ordinary is a parameter of the model (log 12). -/
def Obligations.BufferOnDeviceRefused : Prop :=
  ∀ s : State, bufferLen s = 3 * pixelProduct s → imageBase s + bufferLen s ≤ 2 ^ 32 →
    (∀ a, imageBase s ≤ a → a < imageBase s + bufferLen s →
      ¬(s.params.csrBase.toNat ≤ a ∧ a < s.params.csrBase.toNat + 32)) →
    (∃ d ∈ s.params.deviceMem, ∃ a, imageBase s ≤ a ∧ a < imageBase s + bufferLen s ∧ d.base ≤ a ∧ a < d.base + d.len) →
      exec .start s = .refused .bufferOnDevice

/-- R92 as the model has it (log 13): when the platform is not coherent, a START whose checks pass, with no byte of its buffer
on a device or in the window, is refused as not cleaned exactly when the host owes a clean of a byte of its buffer. -/
def Obligations.UncleanedBufferRefused : Prop :=
  ∀ s : State, bufferLen s = 3 * pixelProduct s → imageBase s + bufferLen s ≤ 2 ^ 32 → s.params.coherent = false →
    (∀ a, imageBase s ≤ a → a < imageBase s + bufferLen s →
      ¬(s.params.csrBase.toNat ≤ a ∧ a < s.params.csrBase.toNat + 32) ∧
        ∀ d ∈ s.params.deviceMem, ¬(d.base ≤ a ∧ a < d.base + d.len)) →
      ((∃ d ∈ s.host.unclean, ∃ a, imageBase s ≤ a ∧ a < imageBase s + bufferLen s ∧ d.base ≤ a ∧ a < d.base + d.len) ↔
        exec .start s = .refused .bufferNotCleaned)

/-! ### The register window -/

/-- R41: a 32-bit access at CSR_BASE + offset reaches the register at that offset. -/
def Obligations.RegisterAddressReachesRegister : Prop :=
  ∀ (p : Params) (r : RegName), legalBuild p = true →
    (regAddr p r).toNat = p.csrBase.toNat + regOffset r ∧ accessTarget p (regAddr p r) .word = .register r

/-- R36 to R39, R344: a write of IMG_BASE, BUF_LEN, WIDTH or HEIGHT stores the whole word, in one step, and changes nothing
else. -/
def Obligations.PlainRegisterWrites : Prop :=
  ∀ (s : State) (r : RegName) (v : Word) (rest : List HostOp), NextOp s (.write (regAddr s.params r) .word v) rest →
    (r = .imgBase → step s = .next (State.respond { taken s rest with csr := { s.csr with imgBase := v } } .done)) ∧
    (r = .bufLen → step s = .next (State.respond { taken s rest with csr := { s.csr with bufLen := v } } .done)) ∧
    (r = .width → step s = .next (State.respond { taken s rest with csr := { s.csr with width := v } } .done)) ∧
    (r = .height → step s = .next (State.respond { taken s rest with csr := { s.csr with height := v } } .done))

/-- R40: a write of FACTOR stores each field clamped to 128 and zeros above, and changes nothing else. -/
def Obligations.FactorWriteClamps : Prop :=
  ∀ (s : State) (v : Word) (rest : List HostOp), NextOp s (.write (regAddr s.params .factor) .word v) rest →
    ∃ f : Word,
      step s = .next (State.respond { taken s rest with csr := { s.csr with factor := f } } .done) ∧
        (factorField f 0).toNat = min (factorField v 0).toNat 128 ∧
        (factorField f 1).toNat = min (factorField v 1).toNat 128 ∧
        (factorField f 2).toNat = min (factorField v 2).toNat 128 ∧ factorField f 3 = 0

/-- R42: a write of CAP or STATUS is ignored. -/
def Obligations.ReadOnlyWritesIgnored : Prop :=
  ∀ (s : State) (r : RegName) (v : Word) (rest : List HostOp), NextOp s (.write (regAddr s.params r) .word v) rest →
    r = .cap ∨ r = .status → step s = .next ((taken s rest).respond .done)

/-- R33 to R40, R42: a read returns the register's value, CMD reading 0 and CAP the lane count and strategy, and has no
effect. -/
def Obligations.RegisterReads : Prop :=
  ∀ (s : State) (r : RegName) (rest : List HostOp), NextOp s (.read (regAddr s.params r) .word) rest →
    ∃ v : Word, step s = .next ((taken s rest).respond (.data v)) ∧
      (r = .cap → v.toNat = s.params.lanes + 65536 * (match s.params.strategy with | .planar => 1 | .interleaved => 2)) ∧
      (r = .cmd → v = 0) ∧ (r = .status → v = s.csr.status) ∧ (r = .imgBase → v = s.csr.imgBase) ∧
      (r = .bufLen → v = s.csr.bufLen) ∧ (r = .width → v = s.csr.width) ∧ (r = .height → v = s.csr.height) ∧
      (r = .factor → v = s.csr.factor)

/-- R41: a byte or halfword access, or one not aligned to 4 bytes, that touches the window gets a bus
error, has no effect, and its program is refused. That an access only partly in the window counts is the model's reading
(log 10). -/
def Obligations.MalformedWindowAccessGetsBusError : Prop :=
  ∀ (s : State) (op : HostOp) (addr : Word) (size : AccessSize) (rest : List HostOp), NextOp s op rest →
    (op = .read addr size ∨ ∃ v, op = .write addr size v) →
    addr.toNat < s.params.csrBase.toNat + 32 → s.params.csrBase.toNat < addr.toNat + size.bytes →
    (size ≠ .word ∨ addr.toNat % 4 ≠ 0) →
      step s = .refused .windowBusError

/-- The host's byte write outside the window, to an address on no device, changes that byte of memory alone (R51, R80), and
when the platform is not coherent leaves a clean owed (log 13). The host's byte read there answers the byte memory holds
and changes nothing (log 14), unless the platform is not coherent and the byte is one to invalidate first. -/
def Obligations.HostByteWriteChangesOneByte : Prop :=
  ∀ (s : State) (addr : Word) (rest : List HostOp),
    (∀ d ∈ s.params.deviceMem, ¬(d.base ≤ addr.toNat ∧ addr.toNat < d.base + d.len)) →
    ¬(s.params.csrBase.toNat ≤ addr.toNat ∧ addr.toNat < s.params.csrBase.toNat + 32) →
    (NextOp s (.read addr .byte) rest →
      (s.params.coherent = true ∨ spanMeetsAny ⟨addr.toNat, 1⟩ s.host.stale = false) →
      step s = .next ((taken s rest).respond (.byte (s.mem.read addr.toNat)))) ∧
    ∀ data : Word, NextOp s (.write addr .byte data) rest → s.mem.wf = true →
      ∃ t, step s = .next t ∧
        (∀ a, t.mem.read a = if a = addr.toNat then data.setWidth 8 else s.mem.read a) ∧
        t.csr = s.csr ∧ t.seq = s.seq ∧ t.data = s.data ∧ t.params = s.params ∧ t.trace = s.trace ∧
        t.host.responses = s.host.responses ++ [.done] ∧ t.host.queue = rest ∧
        spanMeetsAny ⟨addr.toNat, 1⟩ t.host.unclean =
          (spanMeetsAny ⟨addr.toNat, 1⟩ s.host.unclean || !s.params.coherent)

/-- R92, R93 as the model has them (log 13): a host's clean or invalidate of a range completes, ends what is owed there and
changes nothing else. An address is owed a clean (or an invalidate) after exactly when it was before and lies outside the
range. On a platform that is not coherent, an invalidate over a byte owed a clean is refused. -/
def Obligations.MaintenanceClearsItsRange : Prop :=
  ∀ (s : State) (r : Span) (rest : List HostOp),
    (NextOp s (.clean r) rest →
      ∃ l, step s = .next (State.respond { s with
          host := { s.host with queue := rest, unclean := l }, inputs := s.inputs.tail } .done) ∧
        ∀ a, spanMeetsAny ⟨a, 1⟩ l = true ↔
          spanMeetsAny ⟨a, 1⟩ s.host.unclean = true ∧ ¬(r.base ≤ a ∧ a < r.base + r.len)) ∧
    (NextOp s (.invalidate r) rest →
      (s.params.coherent = true ∨
          ∀ a, r.base ≤ a → a < r.base + r.len → spanMeetsAny ⟨a, 1⟩ s.host.unclean = false) →
      ∃ l, step s = .next (State.respond { s with
          host := { s.host with queue := rest, stale := l }, inputs := s.inputs.tail } .done) ∧
        ∀ a, spanMeetsAny ⟨a, 1⟩ l = true ↔
          spanMeetsAny ⟨a, 1⟩ s.host.stale = true ∧ ¬(r.base ≤ a ∧ a < r.base + r.len)) ∧
    (NextOp s (.invalidate r) rest → s.params.coherent = false →
      (∃ a, r.base ≤ a ∧ a < r.base + r.len ∧ spanMeetsAny ⟨a, 1⟩ s.host.unclean = true) →
      step s = .refused .invalidateUncleaned)

/-- R93 as the model has it (log 13): on a platform that is not coherent, from the START on every byte of the buffer is one
the host may not read before it invalidates it. -/
def Obligations.RunLeavesBufferStale : Prop :=
  ∀ (s t u : State) (a : Word) (rest : List HostOp), Startable s → s.params.coherent = false → exec .start s = .next t →
    imageBase s ≤ a.toNat → a.toNat < imageBase s + bufferLen s →
    u.params = s.params → u.host.stale = t.host.stale → NextOp u (.read a .byte) rest →
      step u = .refused .staleRead

/-! ### The lane datapath -/

/-- R181 to R183: the three lane primitives, exact. -/
def Obligations.LanePrimitivesExact : Prop :=
  (∀ v f : Byte, (widenMultiply v f).toNat = v.toNat * f.toNat) ∧
    (∀ w : Half, (saturatingDouble w).toNat = min 65535 (2 * w.toNat)) ∧
    ∀ w : Half, (narrowHighByte w).toNat = w.toNat / 256

/-- R185: the closed forms of one lane, the first of them for every factor byte, the others for F <= 128 and beyond. -/
def Obligations.GainClosedForm : Prop :=
  ∀ v f : Byte,
    (gain v f).toNat = min 65535 (min 65535 (2 * v.toNat * f.toNat) * 2) / 256 ∧
      (gain v f).toNat = min 65535 (4 * v.toNat * f.toNat) / 256 ∧
      (gain v f).toNat = min 255 (v.toNat * f.toNat / 64)

/-- R186: for F <= 128 the first doubling is exact, and the second saturates exactly when v * F >= 16384. -/
def Obligations.OnlySecondDoublingSaturates : Prop :=
  ∀ v f : Byte, f.toNat ≤ 128 →
    (saturatingDouble (widenMultiply v f)).toNat = 2 * (v.toNat * f.toNat) ∧
      ((wideGain v f).toNat ≠ 4 * (v.toNat * f.toNat) ↔ 16384 ≤ v.toNat * f.toNat)

/-- R187: the laws of gain. -/
def Obligations.GainLaws : Prop :=
  ∀ v v' f f' : Byte,
    gain v 64 = v ∧ gain v 0 = 0 ∧ gain 0 f = 0 ∧ (gain v f = 255 ↔ 16320 ≤ v.toNat * f.toNat) ∧
      (v.toNat ≤ v'.toNat → f.toNat ≤ f'.toNat → (gain v f).toNat ≤ (gain v' f').toNat) ∧
      (gain v 128).toNat = min 255 (2 * v.toNat) ∧ 64 * (gain v f).toNat ≤ v.toNat * f.toNat

/-- R188, R189: interleaving what was deinterleaved gives the bytes back, whatever the inactive lanes hold. -/
def Obligations.InterleaveInvertsDeinterleave : Prop :=
  ∀ (bytes : List Byte) (n a : Nat) (fill : Nat → Nat → Byte), bytes.length = 3 * a → a ≤ n →
    interleave3 (deinterleave bytes 0 n (fill 0)) (deinterleave bytes 1 n (fill 1)) (deinterleave bytes 2 n (fill 2)) a =
      bytes

/-- R193: the masked store writes its active lanes and leaves every other byte of memory as it was. -/
def Obligations.MaskedStoreWritesActiveLanesOnly : Prop :=
  ∀ (m : Memory) (base a : Nat) (v : List Byte), m.wf = true → a ≤ v.length → base + a ≤ 2 ^ 32 →
    ∀ x, (storeBytes m base v a).read x = if base ≤ x ∧ x < base + a then v.getD (x - base) 0 else m.read x

/-- R249: at an offset that is a multiple of 3, each lane below the stride meets its own channel's factor, and each lane
from the stride on meets the identity. -/
def Obligations.FactorTableIsAligned : Prop :=
  ∀ (n o i : Nat) (w : Word), 3 ∣ o → i < n →
    (i < alignedStride n → (factorTable n w).getD i 0 = factorField w ((o + i) % 3)) ∧
      (alignedStride n ≤ i → ∀ v, gain v ((factorTable n w).getD i 0) = v) ∧ n < alignedStride n + 3

/-! ### The Sequencer -/

/-- R211 to R215: one planar batch. The bytes of its active pixels take their gained values, every other byte of memory is
unchanged, the lane groups hold the gained channels, seq.pos advances by N, and no register changes. -/
def Obligations.PlanarBatchStep : Prop :=
  ∀ s : State, Running s → s.mem.wf = true → s.params.strategy = .planar → s.seq.pos < bufferLen s / 3 →
    ∃ t, step s = .next t ∧ t.seq = ⟨.run, s.seq.pos + s.params.lanes⟩ ∧
      (∀ x, t.mem.read x =
        if imageBase s + 3 * s.seq.pos ≤ x ∧
            x < imageBase s + 3 * (s.seq.pos + min s.params.lanes (bufferLen s / 3 - s.seq.pos)) then
          gain (s.mem.read x) (factorField s.csr.factor ((x - imageBase s) % 3))
        else s.mem.read x) ∧
      (∀ j, j < min s.params.lanes (bufferLen s / 3 - s.seq.pos) →
        t.data.vr.getD j 0 = gain (s.mem.read (imageBase s + 3 * (s.seq.pos + j))) (factorField s.csr.factor 0) ∧
        t.data.vg.getD j 0 = gain (s.mem.read (imageBase s + 3 * (s.seq.pos + j) + 1)) (factorField s.csr.factor 1) ∧
        t.data.vb.getD j 0 = gain (s.mem.read (imageBase s + 3 * (s.seq.pos + j) + 2)) (factorField s.csr.factor 2)) ∧
      t.data.vi = s.data.vi ∧ t.data.ft = s.data.ft ∧ t.csr = s.csr ∧ t.host = s.host ∧ t.params = s.params

/-- R243 to R248: one interleaved iteration against the built table. Each lane below the stride takes its channel's gain,
the straddling bytes are written back unchanged, every other byte of memory is unchanged, seq.pos advances by S, and no
register changes. -/
def Obligations.InterleavedBatchStep : Prop :=
  ∀ s : State, Running s → s.mem.wf = true → s.params.strategy = .interleaved → s.seq.pos < bufferLen s →
    s.data.ft = factorTable s.params.lanes s.csr.factor → 3 ∣ s.seq.pos →
    ∃ t, step s = .next t ∧ t.seq = ⟨.run, s.seq.pos + s.params.lanes / 3 * 3⟩ ∧
      (∀ x, t.mem.read x =
        if imageBase s + s.seq.pos ≤ x ∧
            x < imageBase s + s.seq.pos + min (s.params.lanes / 3 * 3) (bufferLen s - s.seq.pos) then
          gain (s.mem.read x) (factorField s.csr.factor ((x - imageBase s) % 3))
        else s.mem.read x) ∧
      (∀ i, i < min s.params.lanes (bufferLen s - s.seq.pos) →
        t.data.vi.getD i 0 =
          gain (s.mem.read (imageBase s + s.seq.pos + i)) (s.data.ft.getD i 0)) ∧
      t.data.vr = s.data.vr ∧ t.data.vg = s.data.vg ∧ t.data.vb = s.data.vb ∧ t.data.ft = s.data.ft ∧
      t.csr = s.csr ∧ t.host = s.host ∧ t.params = s.params

/-- R84, R91 (a) and (c), R85: a batch of either strategy reads and writes the same bytes, each of them once, its reads see
memory as it was before any of its writes, and its writes are all that changes memory. -/
def Obligations.BatchReadsBeforeItWrites : Prop :=
  ∀ s : State, Running s → s.seq.pos < runEnd s → s.data.ft.length = s.params.lanes →
    ∃ t rs ws, step s = .next t ∧ t.trace = s.trace ++ [.batch rs ws] ∧ rs.map Prod.fst = ws.map Prod.fst ∧
      (ws.map Prod.fst).Nodup ∧ (∀ c ∈ rs, s.mem.read c.1 = c.2) ∧ t.mem = s.mem.writeCells ws ∧
      (∀ c ∈ ws, imageBase s ≤ c.1 ∧ c.1 < imageBase s + bufferLen s)

/-- R91 (c): in which order the writes of a batch, to distinct bytes, are made does not matter. -/
def Obligations.WriteOrderWithinBatchIsFree : Prop :=
  ∀ (m : Memory) (ws ws' : List Host.Cell), m.wf = true → ws.Perm ws' → (ws.map Prod.fst).Nodup →
    (∀ c ∈ ws, c.1 < 2 ^ 32) → m.writeCells ws = m.writeCells ws'

/-- R279, R280: when the loop test fails the run ends: IDLE, DONE set, the host's write completed, and no other register and
no byte of memory changed. -/
def Obligations.LoopEndCompletesStart : Prop :=
  ∀ s : State, Running s → runEnd s ≤ s.seq.pos → s.csr.status = 0x00000000#32 →
    ∃ t, step s = .next t ∧ t.seq.state = .idle ∧ t.csr = { s.csr with status := 0x00000001#32 } ∧
      t.host = { s.host with wait := false, responses := s.host.responses ++ [.done] } ∧ t.mem = s.mem ∧
      t.params = s.params ∧ t.trace = s.trace

/-- R50, R280: while the run goes on the host waits: no step of it issues a host operation, and none completes one unless
the run ends in it. -/
def Obligations.HostIsBlockedDuringRun : Prop :=
  ∀ s t : State, s.seq.state = .run → step s = .next t →
    t.host.queue = s.host.queue ∧ (t.seq.state = .run → t.host = s.host)

/-- R288, R276, R315: a memory error stops the run with STATUS = 0x42. Each byte of the buffer is what it was at the START or
its AdjustMap value, every other byte and every other register is unchanged, and the host's write completes. That this is a
next state is the model's reading (log 8). -/
def Obligations.MemErrorStopsRun : Prop :=
  ∀ s : State, legalBuild s.params = true → s.seq.state = .run → imageBase s + bufferLen s ≤ 2 ^ 32 →
    s.mem.wf = true → s.seq.pos < runEnd s → s.inputs.head? = some .memError →
    ∃ t, step s = .next t ∧ t.seq.state = .idle ∧ t.csr = { s.csr with status := 0x00000042#32 } ∧
      t.host = { s.host with wait := false, responses := s.host.responses ++ [.done] } ∧ t.params = s.params ∧
      (∀ k, k < bufferLen s →
        t.mem.read (imageBase s + k) = s.startMem.read (imageBase s + k) ∨
          t.mem.read (imageBase s + k) =
            gain (s.startMem.read (imageBase s + k)) (factorField s.csr.factor (k % 3))) ∧
      ∀ a, (a < imageBase s ∨ imageBase s + bufferLen s ≤ a) → t.mem.read a = s.mem.read a

/-! ### Reset -/

/-- R341: the values after reset, of every build. -/
def Obligations.ResetValues : Prop :=
  ∀ p : Params, (State.resetOf p).csr.status = 0x00000000#32 ∧ (State.resetOf p).csr.imgBase = 0x00000000#32 ∧
    (State.resetOf p).csr.bufLen = 0x00000000#32 ∧ (State.resetOf p).csr.width = 0x00000000#32 ∧
    (State.resetOf p).csr.height = 0x00000000#32 ∧ (State.resetOf p).csr.factor = 0x00404040#32 ∧
    (State.resetOf p).seq.state = .idle ∧ (State.resetOf p).host.wait = false ∧ (State.resetOf p).params = p

/-- R340, R341: the reset input, outside a run: the registers take their reset values, the Sequencer is IDLE, the host does
not wait, and no byte of memory changes. -/
def Obligations.ResetInputOutsideRun : Prop :=
  ∀ (s : State), legalBuild s.params = true → s.seq.state = .idle → s.inputs.head? = some .reset →
    ∃ t, step s = .next t ∧
      t.csr = ⟨0x00000000#32, 0x00000000#32, 0x00000000#32, 0x00000000#32, 0x00000000#32, 0x00404040#32⟩ ∧
      t.seq.state = .idle ∧ t.host.wait = false ∧ t.host.queue = s.host.queue ∧ t.mem = s.mem ∧ t.params = s.params

/-- R342: reset during a run stops it: the registers take their reset values, and each byte of the buffer is what it was at
the START or its AdjustMap value; every other byte is unchanged. -/
def Obligations.ResetDuringRun : Prop :=
  ∀ (s : State), legalBuild s.params = true → s.seq.state = .run → imageBase s + bufferLen s ≤ 2 ^ 32 →
    s.mem.wf = true → s.inputs.head? = some .reset →
    ∃ t, step s = .next t ∧
      t.csr = ⟨0x00000000#32, 0x00000000#32, 0x00000000#32, 0x00000000#32, 0x00000000#32, 0x00404040#32⟩ ∧
      t.seq.state = .idle ∧ t.host.wait = false ∧ t.params = s.params ∧
      (∀ k, k < bufferLen s →
        t.mem.read (imageBase s + k) = s.startMem.read (imageBase s + k) ∨
          t.mem.read (imageBase s + k) =
            gain (s.startMem.read (imageBase s + k)) (factorField s.csr.factor (k % 3))) ∧
      ∀ a, (a < imageBase s ∨ imageBase s + bufferLen s ≤ a) → t.mem.read a = s.mem.read a

/-! ### Whole runs -/

/-- R210, R215, R216, R351: under PLANAR, START and then ceil_div(P, N) batches and the loop test carry the buffer to its
AdjustMap and complete the command. -/
def Obligations.PlanarStartRunsToAdjustMap : Prop :=
  ∀ s : State, Startable s → s.params.strategy = .planar → s.mem.wf = true → s.inputs = [] →
    ∃ t u, exec .start s = .next t ∧ t.seq.state = .run ∧
      core.run (ceilDiv (s.csr.width.toNat * s.csr.height.toNat) s.params.lanes + 1) t = .next u ∧
      RunEnds s u (ceilDiv (s.csr.width.toNat * s.csr.height.toNat) s.params.lanes)

/-- R247, R250, R251, R351: under INTERLEAVED, START and then ceil_div(L, S) iterations and the loop test carry the buffer to
its AdjustMap and complete the command. -/
def Obligations.InterleavedStartRunsToAdjustMap : Prop :=
  ∀ s : State, Startable s → s.params.strategy = .interleaved → s.mem.wf = true → s.inputs = [] →
    ∃ t u, exec .start s = .next t ∧ t.seq.state = .run ∧
      core.run (ceilDiv (bufferLen s) (s.params.lanes / 3 * 3) + 1) t = .next u ∧
      RunEnds s u (ceilDiv (bufferLen s) (s.params.lanes / 3 * 3))

/-- R284: two systems with the same registers and memory, of any two builds, end a START with the same memory, the AdjustMap
of the memory they began with, and STATUS = 1. -/
def Obligations.BuildsAreEquivalent : Prop :=
  ∀ s s' : State, Startable s → Startable s' → s.csr = s'.csr → s.mem = s'.mem → s.mem.wf = true → s.inputs = [] →
    s'.inputs = [] →
    ∃ t u t' u', exec .start s = .next t ∧ core.run (batchCount s + 1) t = .next u ∧
      exec .start s' = .next t' ∧ core.run (batchCount s' + 1) t' = .next u' ∧ u.mem = u'.mem ∧
      u.csr = u'.csr ∧ u.csr.status = 0x00000001#32 ∧
      (∀ k, k < bufferLen s →
        u.mem.read (imageBase s + k) =
          gain (s.mem.read (imageBase s + k)) (factorField s.csr.factor (k % 3))) ∧
      ∀ a, (a < imageBase s ∨ imageBase s + bufferLen s ≤ a) → u.mem.read a = s.mem.read a

/-- R168: a START with every factor 64 leaves memory as it was, under either strategy. -/
def Obligations.IdentityFactorsLeaveMemory : Prop :=
  ∀ s : State, Startable s → s.csr.factor = 0x00404040#32 → s.mem.wf = true → s.inputs = [] →
    ∃ t u, exec .start s = .next t ∧ core.run (batchCount s + 1) t = .next u ∧ u.mem = s.mem ∧
      u.csr.status = 0x00000001#32

/-- R285: an empty image passes both checks, makes no memory access and completes with STATUS = 1; under INTERLEAVED it
still builds FT. -/
def Obligations.EmptyImageCompletes : Prop :=
  ∀ s : State, legalBuild s.params = true → s.csr.bufLen.toNat = 0 → 3 * (s.csr.width.toNat * s.csr.height.toNat) = 0 →
    s.inputs = [] →
    ∃ t u, exec .start s = .next t ∧ t.seq.state = .run ∧
      (s.params.strategy = .interleaved → t.data.ft = factorTable s.params.lanes s.csr.factor) ∧
      step t = .next u ∧ u.csr.status = 0x00000001#32 ∧ u.mem = s.mem ∧ u.trace = s.trace ∧ u.seq.state = .idle ∧
      u.host.wait = false

/-- R86, R87 under PLANAR: each byte of the buffer is read exactly once and written exactly once, and no other byte is
accessed. -/
def Obligations.PlanarAccessesEachByteOnce : Prop :=
  ∀ s : State, Startable s → s.params.strategy = .planar → s.inputs = [] →
    ∃ t u l, exec .start s = .next t ∧ core.run (batchCount s + 1) t = .next u ∧ u.trace = s.trace ++ l ∧
      ∀ a, readCount a l = (if imageBase s ≤ a ∧ a < imageBase s + bufferLen s then 1 else 0) ∧
        writeCount a l = (if imageBase s ≤ a ∧ a < imageBase s + bufferLen s then 1 else 0)

/-- R86, R87 under INTERLEAVED: byte k is read and written twice exactly when k div S >= 1 and k mod S < N - S, else once, and
no byte outside the buffer is accessed. -/
def Obligations.InterleavedAccessesEachByteOnceOrTwice : Prop :=
  ∀ s : State, Startable s → s.params.strategy = .interleaved → s.inputs = [] →
    ∃ t u l, exec .start s = .next t ∧ core.run (batchCount s + 1) t = .next u ∧ u.trace = s.trace ++ l ∧
      (∀ k, k < bufferLen s →
        readCount (imageBase s + k) l =
          (if 1 ≤ k / alignedStride s.params.lanes ∧
              k % alignedStride s.params.lanes < s.params.lanes - alignedStride s.params.lanes then 2 else 1) ∧
        writeCount (imageBase s + k) l =
          (if 1 ≤ k / alignedStride s.params.lanes ∧
              k % alignedStride s.params.lanes < s.params.lanes - alignedStride s.params.lanes then 2 else 1)) ∧
      ∀ a, (a < imageBase s ∨ imageBase s + bufferLen s ≤ a) → readCount a l = 0 ∧ writeCount a l = 0

/-! ### The host-side encoder and the oracle -/

/-- R140, R141: encode stays in [0, 128], clamps what is outside [0, 2], takes the source's three values, and maps NaN to 0. -/
def Obligations.EncodeClampsAndRounds : Prop :=
  encodeFactor .nan = 0 ∧ encodeFactor (.real 1) = 64 ∧ encodeFactor (.real 2) = 128 ∧ encodeFactor (.real 0) = 0 ∧
    ∀ f : Rat, encodeFactor (.real f) ≤ 128 ∧ (f < 0 → encodeFactor (.real f) = 0) ∧
      (2 < f → encodeFactor (.real f) = 128) ∧
      (0 ≤ f → f ≤ 2 → (encodeFactor (.real f) : Int) = ⌊f * 64 + 1 / 2⌋)

/-- R142: the encoded factor is within 1/128 of the clamped one. -/
def Obligations.EncodeIsWithinHalfAStep : Prop :=
  ∀ f : Rat, |(encodeFactor (.real f) : Rat) / 64 - clampRat f 0 2| ≤ 1 / 128

/-- R164: at a representable factor the oracle is the hardware's value or one more, and one more exactly when the product's
fraction is at least one half and the product is below 255. -/
def Obligations.OracleWithinOneAtRepresentableFactors : Prop :=
  ∀ v f : Byte, f.toNat ≤ 128 →
    oracle v ((f.toNat : Rat) / 64) =
      (gain v f).toNat + (if 32 ≤ v.toNat * f.toNat % 64 ∧ v.toNat * f.toNat < 255 * 64 then 1 else 0)

/-- R165: at any factor in [0, 2] the oracle less the hardware's value lies in [-2, +3], and both ends are reached. -/
def Obligations.OracleBoundAtAnyFactor : Prop :=
  (∀ (v : Byte) (f : Rat), 0 ≤ f → f ≤ 2 →
    (gain v (encodedByte (.real f))).toNat ≤ oracle v f + 2 ∧ oracle v f ≤ (gain v (encodedByte (.real f))).toNat + 3) ∧
    oracle 245 (23 / 1024) = (gain 245 (encodedByte (.real (23 / 1024)))).toNat + 3 ∧
    (gain 224 (encodedByte (.real (3 / 128)))).toNat = oracle 224 (3 / 128) + 2

/-! ### Invariants -/

/-- Every legal build is in the invariant after reset. -/
def Obligations.ResetMeetsInvariant : Prop :=
  (∀ p : Params, legalBuild p = true → Inv (State.resetOf p)) ∧ Inv State.reset

/-- R30 (6): no step changes a parameter. -/
def Obligations.StepKeepsParameters : Prop :=
  ∀ s t : State, step s = .next t → t.params = s.params

/-- R35, R52: STATUS stays one of the six words the commands produce, and clear while a run is in progress; so DONE and ERR
never both hold. -/
def Obligations.StepKeepsStatusLegal : Prop :=
  (∀ s t : State, StatusInv s → step s = .next t → StatusInv t) ∧
    ∀ s : State, StatusInv s → (statusDone s.csr.status && statusErr s.csr.status) = false

/-- R40, R144: the fields of FACTOR stay in [0, 128] and its reserved bits zero. -/
def Obligations.StepKeepsFactorLegal : Prop :=
  ∀ s t : State, FactorInv s → step s = .next t → FactorInv t

/-- R50, R280: the host waits exactly while a run is in progress. -/
def Obligations.StepKeepsHostWaiting : Prop :=
  ∀ s t : State, WaitInv s → step s = .next t → WaitInv t

/-- Memory keeps its canonical form, addresses inside the 32-bit space (R51, R80). -/
def Obligations.StepKeepsMemoryCanonical : Prop :=
  ∀ s t : State, MemoryInv s → step s = .next t → MemoryInv t

/-- The whole invariant, the half-done image of a run among it (R216, R250), is kept by every step. -/
def Obligations.StepKeepsInvariant : Prop :=
  ∀ s t : State, Inv s → step s = .next t → Inv t

/-- In the invariant no step faults: no run leaves the address space (R86, R277). -/
def Obligations.InvariantStatesDoNotFault : Prop :=
  ∀ (s : State) (r : Fault), Inv s → step s ≠ .fault r

/-- R49, R282: what the lane vectors, FT and seq.pos hold outside a run, the inactive lanes of a batch, the trace and the
earlier draws change no step's effect on anything a host can see, while no memory error or reset draws a free choice. -/
def Obligations.UnspecifiedValuesAreUnobservable : Prop :=
  ∀ s t s' : State, SameView s t → s.inputs = [] → step s = .next s' →
    ∃ t', step t = .next t' ∧ SameView s' t'
end

