-- ==== Sys2Proof/Laws/Lanes.lean ====
section
/-! SUPPORT. Laws of the lane primitives: how many lanes each has, and what each lane holds. -/

namespace Sys2Proof.Machine

@[simp] theorem wideVec_length (a f : List Byte) : (wideVec a f).length = min a.length f.length := by
  simp [wideVec]

@[simp] theorem gainVec_length (a f : List Byte) : (gainVec a f).length = min a.length f.length := by
  simp [gainVec]

/-- Lane `i` of `gain_vec` is `gain` of lane `i` of the data and of the factors. -/
theorem gainVec_getD {a f : List Byte} {i : Nat} (ha : i < a.length) (hf : i < f.length) :
    (gainVec a f).getD i 0 = gain (a.getD i 0) (f.getD i 0) := by
  have h : i < (gainVec a f).length := by simp; omega
  rw [List.getD_eq_getElem _ _ h, List.getD_eq_getElem _ _ ha, List.getD_eq_getElem _ _ hf]
  simp [gainVec, wideVec, gain]

@[simp] theorem broadcast_length (n : Nat) (f : Byte) : (broadcast n f).length = n := by simp [broadcast]

theorem broadcast_getD {n i : Nat} {f d : Byte} (h : i < n) : (broadcast n f).getD i d = f := by
  simp [broadcast, List.getD_eq_getElem?_getD, h]

@[simp] theorem deinterleave_length (s : List Byte) (c n : Nat) (fill : Nat → Byte) :
    (deinterleave s c n fill).length = n := by simp [deinterleave]

theorem deinterleave_getD {s : List Byte} {c n j : Nat} {fill : Nat → Byte} (h : j < n) :
    (deinterleave s c n fill).getD j 0 = s.getD (3 * j + c) (fill j) := by
  simp [deinterleave, List.getD_eq_getElem?_getD, h]

@[simp] theorem loadBytes_length (m : Memory) (base a n : Nat) (fill : Nat → Byte) :
    (loadBytes m base a n fill).length = n := by simp [loadBytes]

theorem loadBytes_getD {m : Memory} {base a n i : Nat} {fill : Nat → Byte} (hn : i < n) (ha : i < a) :
    (loadBytes m base a n fill).getD i 0 = m.read (base + i) := by
  simp [loadBytes, List.getD_eq_getElem?_getD, hn, ha]

@[simp] theorem load3_length (m : Memory) (base a c n : Nat) (fill : Nat → Byte) :
    (load3 m base a c n fill).length = n := by simp [load3]

/-- Lane `j` of channel `c` after the structure load of `a` pixels is byte 3j + c. -/
theorem load3_getD {m : Memory} {base a c n j : Nat} {fill : Nat → Byte} (hn : j < n) (ha : j < a) (hc : c < 3) :
    (load3 m base a c n fill).getD j 0 = m.read (base + (3 * j + c)) := by
  rw [load3, deinterleave_getD hn, Memory.readBytes]
  simp [List.getD_eq_getElem?_getD, show 3 * j + c < 3 * a by omega]

@[simp] theorem interleave3_length (r g b : List Byte) (a : Nat) : (interleave3 r g b a).length = 3 * a := by
  simp [interleave3, Nat.mul_comm]

/-- Byte `k` of `interleave3` is lane `k / 3` of channel `k % 3`. -/
theorem interleave3_getD {r g b : List Byte} {a k : Nat} (h : k < 3 * a) :
    (interleave3 r g b a).getD k 0 = (if k % 3 = 0 then r else if k % 3 = 1 then g else b).getD (k / 3) 0 := by
  induction a with
  | zero => omega
  | succ a ih =>
    have hsplit : interleave3 r g b (a + 1) = interleave3 r g b a ++ [r.getD a 0, g.getD a 0, b.getD a 0] := by
      simp [interleave3, List.range_succ, List.flatMap_append]
    rw [hsplit]
    by_cases hk : k < 3 * a
    · rw [List.getD_append _ _ _ _ (by simpa using hk), ih hk]
    · rw [List.getD_append_right _ _ _ _ (by simpa using Nat.le_of_not_lt hk), interleave3_length]
      have : k = 3 * a ∨ k = 3 * a + 1 ∨ k = 3 * a + 2 := by omega
      rcases this with rfl | rfl | rfl
      · simp [show 3 * a % 3 = 0 by omega, show 3 * a / 3 = a by omega]
      · simp [show (3 * a + 1) % 3 = 1 by omega, show (3 * a + 1) / 3 = a by omega,
          show 3 * a + 1 - 3 * a = 1 by omega]
      · simp [show (3 * a + 2) % 3 = 2 by omega, show (3 * a + 2) / 3 = a by omega,
          show 3 * a + 2 - 3 * a = 2 by omega]

@[simp] theorem factorTable_length (n : Nat) (w : Word) : (factorTable n w).length = n := by simp [factorTable]

theorem factorTable_getD {n i : Nat} {w : Word} (h : i < n) :
    (factorTable n w).getD i 0 = if i < alignedStride n then factorField w (i % 3) else 64 := by
  simp [factorTable, List.getD_eq_getElem?_getD, h]

theorem alignedStride_le (n : Nat) : alignedStride n ≤ n := by unfold alignedStride; omega

theorem three_dvd_alignedStride (n : Nat) : 3 ∣ alignedStride n := ⟨n / 3, by unfold alignedStride; omega⟩

end Sys2Proof.Machine
end

