-- ==== Sys2Proof/Laws/Memory.lean ====
section
/-! SUPPORT. Laws of memory: a write is read back and leaves every other byte alone, every operation keeps the canonical
form, and canonical memories with equal bytes are equal. -/

namespace Sys2Proof.Machine

theorem Memory.wfFrom_mono {lo lo' : Nat} {m : Memory} (h : Memory.wfFrom lo m = true) (hl : lo' ≤ lo) :
    Memory.wfFrom lo' m = true := by
  cases m with
  | nil => rfl
  | cons c m =>
    simp only [Memory.wfFrom, Bool.and_eq_true, decide_eq_true_eq] at h ⊢
    exact ⟨⟨⟨by omega, h.1.1.2⟩, h.1.2⟩, h.2⟩

theorem Memory.read_below {lo a : Nat} {m : Memory} (h : Memory.wfFrom lo m = true) (ha : a < lo) :
    m.read a = unlistedByte := by
  induction m generalizing lo with
  | nil => rfl
  | cons c m ih =>
    simp only [Memory.wfFrom, Bool.and_eq_true, decide_eq_true_eq] at h
    rw [Memory.read, if_neg (by omega)]
    exact ih h.2 (by omega)

theorem Memory.read_put {a b : Nat} {v : Byte} {m : Memory} (h : m.read a = unlistedByte) :
    (Memory.put a v m).read b = if b = a then v else m.read b := by
  unfold Memory.put
  split
  · split
    · simp_all
    · rfl
  · rfl

/-- Read after write. -/
theorem Memory.read_write {lo : Nat} {m : Memory} (h : Memory.wfFrom lo m = true) (a b : Nat) (v : Byte) :
    (m.write a v).read b = if b = a then v else m.read b := by
  induction m generalizing lo with
  | nil => exact Memory.read_put rfl
  | cons c m ih =>
    obtain ⟨d, u⟩ := c
    have hm := h
    simp only [Memory.wfFrom, Bool.and_eq_true, decide_eq_true_eq] at hm
    unfold Memory.write
    split
    · next hlt =>
      exact Memory.read_put (Memory.read_below (Memory.wfFrom_mono (lo' := d) (by simp_all [Memory.wfFrom]) le_rfl) hlt)
    · split
      · next heq =>
        subst heq
        rw [Memory.read_put (Memory.read_below hm.2 (by omega)), Memory.read]
        split <;> simp_all
      · simp only [Memory.read, ih hm.2]
        split <;> split <;> simp_all

theorem Memory.put_wfFrom {lo a : Nat} {v : Byte} {m : Memory} (h : Memory.wfFrom (a + 1) m = true) (hl : lo ≤ a)
    (ha : a < 2 ^ 32) : Memory.wfFrom lo (Memory.put a v m) = true := by
  unfold Memory.put
  split
  · exact Memory.wfFrom_mono h (by omega)
  · simp only [Memory.wfFrom, Bool.and_eq_true, decide_eq_true_eq]
    exact ⟨⟨⟨hl, ha⟩, by assumption⟩, h⟩

theorem Memory.write_wfFrom {lo a : Nat} {v : Byte} {m : Memory} (h : Memory.wfFrom lo m = true) (hl : lo ≤ a)
    (ha : a < 2 ^ 32) : Memory.wfFrom lo (m.write a v) = true := by
  induction m generalizing lo with
  | nil => exact Memory.put_wfFrom rfl hl ha
  | cons c m ih =>
    obtain ⟨d, u⟩ := c
    have hm := h
    simp only [Memory.wfFrom, Bool.and_eq_true, decide_eq_true_eq] at hm
    unfold Memory.write
    split
    · refine Memory.put_wfFrom ?_ hl ha
      simp only [Memory.wfFrom, Bool.and_eq_true, decide_eq_true_eq]
      exact ⟨⟨⟨by omega, hm.1.1.2⟩, hm.1.2⟩, hm.2⟩
    · split
      · next heq => exact Memory.put_wfFrom (heq ▸ hm.2) hl ha
      · simp only [Memory.wfFrom, Bool.and_eq_true, decide_eq_true_eq]
        exact ⟨hm.1, ih hm.2 (by omega)⟩

/-- A write inside the address space keeps the canonical form. -/
theorem Memory.write_wf {m : Memory} {a : Nat} {v : Byte} (h : m.wf = true) (ha : a < 2 ^ 32) : (m.write a v).wf = true :=
  Memory.write_wfFrom h (Nat.zero_le _) ha

theorem Memory.ext_wfFrom {lo : Nat} {m m' : Memory} (h : Memory.wfFrom lo m = true) (h' : Memory.wfFrom lo m' = true)
    (heq : ∀ a, m.read a = m'.read a) : m = m' := by
  induction m generalizing lo m' with
  | nil =>
    cases m' with
    | nil => rfl
    | cons c m' =>
      have := heq c.1
      simp only [Memory.wfFrom, Bool.and_eq_true, decide_eq_true_eq] at h'
      simp only [Memory.read, if_true] at this
      exact absurd this.symm h'.1.2
  | cons c m ih =>
    obtain ⟨d, u⟩ := c
    cases m' with
    | nil =>
      have := heq d
      simp only [Memory.wfFrom, Bool.and_eq_true, decide_eq_true_eq] at h
      simp only [Memory.read, if_true] at this
      exact absurd this h.1.2
    | cons c' m' =>
      obtain ⟨d', u'⟩ := c'
      simp only [Memory.wfFrom, Bool.and_eq_true, decide_eq_true_eq] at h h'
      have hd : d = d' := by
        rcases Nat.lt_trichotomy d d' with hlt | he | hlt
        · have := heq d
          rw [Memory.read, if_pos rfl, Memory.read, if_neg (by omega), Memory.read_below h'.2 (by omega)] at this
          exact absurd this h.1.2
        · exact he
        · have := heq d'
          rw [Memory.read, if_neg (by omega), Memory.read_below h.2 (by omega), Memory.read, if_pos rfl] at this
          exact absurd this.symm h'.1.2
      subst hd
      have hu := heq d
      simp only [Memory.read, if_true] at hu
      subst hu
      refine congrArg _ (ih h.2 h'.2 fun a => ?_)
      by_cases had : a = d
      · subst had
        rw [Memory.read_below h.2 (by omega), Memory.read_below h'.2 (by omega)]
      · have := heq a
        rwa [Memory.read, if_neg had, Memory.read, if_neg had] at this

/-- Canonical memories with the same bytes are the same memory. -/
theorem Memory.ext {m m' : Memory} (h : m.wf = true) (h' : m'.wf = true) (heq : ∀ a, m.read a = m'.read a) : m = m' :=
  Memory.ext_wfFrom h h' heq

/-! ### Writing several bytes -/

theorem Memory.writeCells_wf {m : Memory} {cs : List Host.Cell} (h : m.wf = true) (hc : ∀ c ∈ cs, c.1 < 2 ^ 32) :
    (m.writeCells cs).wf = true := by
  induction cs generalizing m with
  | nil => exact h
  | cons c cs ih =>
    exact ih (Memory.write_wf h (hc c (List.mem_cons_self ..))) fun c' h' => hc c' (List.mem_cons_of_mem _ h')

theorem mem_cellsFrom {base : Nat} {vs : List Byte} {c : Host.Cell} (h : c ∈ cellsFrom base vs) :
    base ≤ c.1 ∧ c.1 < base + vs.length := by
  induction vs generalizing base with
  | nil => simp [cellsFrom] at h
  | cons v vs ih =>
    simp only [cellsFrom, List.mem_cons, List.length_cons] at h ⊢
    rcases h with rfl | h
    · simp
    · have := ih h
      omega

@[simp] theorem cellsFrom_length (base : Nat) (vs : List Byte) : (cellsFrom base vs).length = vs.length := by
  induction vs generalizing base with
  | nil => rfl
  | cons v vs ih => simp [cellsFrom, ih]

/-- The cells from `base` have distinct, rising addresses. -/
theorem cellsFrom_addresses (base : Nat) (vs : List Byte) :
    (cellsFrom base vs).map Prod.fst = List.range' base vs.length := by
  induction vs generalizing base with
  | nil => rfl
  | cons v vs ih => simp [cellsFrom, ih, List.range'_succ]

theorem Memory.writeBytes_wf {m : Memory} {base : Nat} {vs : List Byte} (h : m.wf = true)
    (hb : base + vs.length ≤ 2 ^ 32) : (m.writeBytes base vs).wf = true :=
  Memory.writeCells_wf h fun _ hc => by have := mem_cellsFrom hc; omega

/-- Writing `vs` from `base` changes the bytes from `base` to `base + vs.length` to `vs` and no other. -/
theorem Memory.read_writeBytes {m : Memory} {base : Nat} {vs : List Byte} (h : m.wf = true)
    (hb : base + vs.length ≤ 2 ^ 32) (a : Nat) :
    (m.writeBytes base vs).read a =
      if base ≤ a ∧ a < base + vs.length then vs.getD (a - base) 0 else m.read a := by
  induction vs generalizing m base with
  | nil =>
    rw [if_neg (by simp)]
    rfl
  | cons v vs ih =>
    simp only [List.length_cons] at hb ⊢
    have hw : (m.write base v).wf = true := Memory.write_wf h (by omega)
    have := ih (m := m.write base v) (base := base + 1) hw (by omega)
    rw [Memory.read_write h] at this
    rw [show m.writeBytes base (v :: vs) = (m.write base v).writeBytes (base + 1) vs from rfl, this]
    rcases Nat.lt_trichotomy a base with hlt | he | hgt
    · rw [if_neg (by omega), if_neg (by omega), if_neg (by omega)]
    · subst he
      rw [if_neg (by omega), if_pos rfl, if_pos (by omega)]
      simp
    · by_cases hin : a < base + 1 + vs.length
      · rw [if_pos ⟨by omega, hin⟩, if_pos ⟨by omega, by omega⟩]
        rw [show a - base = (a - (base + 1)) + 1 by omega, List.getD_cons_succ]
      · rw [if_neg (by omega), if_neg (by omega), if_neg (by omega)]

@[simp] theorem Memory.readBytes_length (m : Memory) (base n : Nat) : (m.readBytes base n).length = n := by
  simp [Memory.readBytes]

theorem Memory.readBytes_getD {m : Memory} {base n k : Nat} {d : Byte} (h : k < n) :
    (m.readBytes base n).getD k d = m.read (base + k) := by
  simp [Memory.readBytes, List.getD_eq_getElem?_getD, h]

end Sys2Proof.Machine
end

