-- ==== Sys2Proof/Laws/State.lean ====
section
/-! SUPPORT. One lemma per field per update of the state, so that no proof unfolds a record update. -/

namespace Sys2Proof.Machine

variable (s : State)

@[simp] theorem State.setStatus_params (w : Word) : (s.setStatus w).params = s.params := rfl
@[simp] theorem State.setStatus_csr (w : Word) : (s.setStatus w).csr = { s.csr with status := w } := rfl
@[simp] theorem State.setStatus_seq (w : Word) : (s.setStatus w).seq = s.seq := rfl
@[simp] theorem State.setStatus_data (w : Word) : (s.setStatus w).data = s.data := rfl
@[simp] theorem State.setStatus_host (w : Word) : (s.setStatus w).host = s.host := rfl
@[simp] theorem State.setStatus_mem (w : Word) : (s.setStatus w).mem = s.mem := rfl
@[simp] theorem State.setStatus_inputs (w : Word) : (s.setStatus w).inputs = s.inputs := rfl
@[simp] theorem State.setStatus_trace (w : Word) : (s.setStatus w).trace = s.trace := rfl
@[simp] theorem State.setStatus_startMem (w : Word) : (s.setStatus w).startMem = s.startMem := rfl
@[simp] theorem State.setStatus_draws (w : Word) : (s.setStatus w).draws = s.draws := rfl

@[simp] theorem State.setWait_params (b : Bool) : (s.setWait b).params = s.params := rfl
@[simp] theorem State.setWait_csr (b : Bool) : (s.setWait b).csr = s.csr := rfl
@[simp] theorem State.setWait_seq (b : Bool) : (s.setWait b).seq = s.seq := rfl
@[simp] theorem State.setWait_data (b : Bool) : (s.setWait b).data = s.data := rfl
@[simp] theorem State.setWait_host (b : Bool) : (s.setWait b).host = { s.host with wait := b } := rfl
@[simp] theorem State.setWait_mem (b : Bool) : (s.setWait b).mem = s.mem := rfl
@[simp] theorem State.setWait_inputs (b : Bool) : (s.setWait b).inputs = s.inputs := rfl
@[simp] theorem State.setWait_trace (b : Bool) : (s.setWait b).trace = s.trace := rfl
@[simp] theorem State.setWait_startMem (b : Bool) : (s.setWait b).startMem = s.startMem := rfl
@[simp] theorem State.setWait_draws (b : Bool) : (s.setWait b).draws = s.draws := rfl

@[simp] theorem State.setSeqState_params (t : SeqState) : (s.setSeqState t).params = s.params := rfl
@[simp] theorem State.setSeqState_csr (t : SeqState) : (s.setSeqState t).csr = s.csr := rfl
@[simp] theorem State.setSeqState_seq (t : SeqState) : (s.setSeqState t).seq = { s.seq with state := t } := rfl
@[simp] theorem State.setSeqState_data (t : SeqState) : (s.setSeqState t).data = s.data := rfl
@[simp] theorem State.setSeqState_host (t : SeqState) : (s.setSeqState t).host = s.host := rfl
@[simp] theorem State.setSeqState_mem (t : SeqState) : (s.setSeqState t).mem = s.mem := rfl
@[simp] theorem State.setSeqState_inputs (t : SeqState) : (s.setSeqState t).inputs = s.inputs := rfl
@[simp] theorem State.setSeqState_trace (t : SeqState) : (s.setSeqState t).trace = s.trace := rfl
@[simp] theorem State.setSeqState_startMem (t : SeqState) : (s.setSeqState t).startMem = s.startMem := rfl
@[simp] theorem State.setSeqState_draws (t : SeqState) : (s.setSeqState t).draws = s.draws := rfl

@[simp] theorem State.respond_params (r : Response) : (s.respond r).params = s.params := rfl
@[simp] theorem State.respond_csr (r : Response) : (s.respond r).csr = s.csr := rfl
@[simp] theorem State.respond_seq (r : Response) : (s.respond r).seq = s.seq := rfl
@[simp] theorem State.respond_data (r : Response) : (s.respond r).data = s.data := rfl
@[simp] theorem State.respond_host (r : Response) : (s.respond r).host = { s.host with responses := s.host.responses ++ [r] } := rfl
@[simp] theorem State.respond_mem (r : Response) : (s.respond r).mem = s.mem := rfl
@[simp] theorem State.respond_inputs (r : Response) : (s.respond r).inputs = s.inputs := rfl
@[simp] theorem State.respond_trace (r : Response) : (s.respond r).trace = s.trace := rfl
@[simp] theorem State.respond_startMem (r : Response) : (s.respond r).startMem = s.startMem := rfl
@[simp] theorem State.respond_draws (r : Response) : (s.respond r).draws = s.draws := rfl

@[simp] theorem State.unspecifyRun_params : (s.unspecifyRun).params = s.params := rfl
@[simp] theorem State.unspecifyRun_csr : (s.unspecifyRun).csr = s.csr := rfl
@[simp] theorem State.unspecifyRun_seq : (s.unspecifyRun).seq = { s.seq with pos := Config.freePos s.draws } := rfl
@[simp] theorem State.unspecifyRun_host : (s.unspecifyRun).host = s.host := rfl
@[simp] theorem State.unspecifyRun_mem : (s.unspecifyRun).mem = s.mem := rfl
@[simp] theorem State.unspecifyRun_inputs : (s.unspecifyRun).inputs = s.inputs := rfl
@[simp] theorem State.unspecifyRun_trace : (s.unspecifyRun).trace = s.trace := rfl
@[simp] theorem State.unspecifyRun_startMem : (s.unspecifyRun).startMem = s.startMem := rfl
@[simp] theorem State.unspecifyRun_draws : (s.unspecifyRun).draws = s.draws + 5 * s.params.lanes + 1 := rfl

/-- `raise Error(code)` writes STATUS, makes the Sequencer IDLE and the host free, and nothing else (R276). -/
theorem raiseError_eq (c : ErrCode) :
    raiseError c s =
      { s with
        csr := { s.csr with status := errorStatus c }
        seq := { s.seq with state := .idle }
        host := { s.host with wait := false } } := rfl

@[simp] theorem raiseError_params (c : ErrCode) : (raiseError c s).params = s.params := rfl
@[simp] theorem raiseError_csr (c : ErrCode) : (raiseError c s).csr = { s.csr with status := errorStatus c } := rfl
@[simp] theorem raiseError_seq (c : ErrCode) : (raiseError c s).seq = { s.seq with state := .idle } := rfl
@[simp] theorem raiseError_data (c : ErrCode) : (raiseError c s).data = s.data := rfl
@[simp] theorem raiseError_host (c : ErrCode) : (raiseError c s).host = { s.host with wait := false } := rfl
@[simp] theorem raiseError_mem (c : ErrCode) : (raiseError c s).mem = s.mem := rfl
@[simp] theorem raiseError_inputs (c : ErrCode) : (raiseError c s).inputs = s.inputs := rfl
@[simp] theorem raiseError_trace (c : ErrCode) : (raiseError c s).trace = s.trace := rfl
@[simp] theorem raiseError_startMem (c : ErrCode) : (raiseError c s).startMem = s.startMem := rfl
@[simp] theorem raiseError_draws (c : ErrCode) : (raiseError c s).draws = s.draws := rfl

end Sys2Proof.Machine
end

