-- ==== Sys2Proof/Laws/Steps.lean ====
section
/-! SUPPORT. What each shared operation and each step can do, said once: spans, the outcomes of START, a mixed memory, the
effect of a batch on memory, and the cases of one step. -/

namespace Sys2Proof.Machine

/-! ### Spans -/

/-- Two spans meet exactly when they share an address. -/
theorem spanMeets_iff (a b : Span) :
    spanMeets a b = true ↔ ∃ x, (a.base ≤ x ∧ x < a.base + a.len) ∧ b.base ≤ x ∧ x < b.base + b.len := by
  rw [spanMeets, decide_eq_true_eq]
  constructor
  · intro h
    exact ⟨max a.base b.base, ⟨by omega, by omega⟩, by omega, by omega⟩
  · rintro ⟨x, h⟩
    omega

theorem spanMeetsAny_iff (a : Span) (l : List Span) :
    spanMeetsAny a l = true ↔ ∃ b ∈ l, ∃ x, (a.base ≤ x ∧ x < a.base + a.len) ∧ b.base ≤ x ∧ x < b.base + b.len := by
  simp [spanMeetsAny, spanMeets_iff]

theorem spanMeetsAny_address (a : Nat) (l : List Span) :
    spanMeetsAny ⟨a, 1⟩ l = true ↔ ∃ b ∈ l, b.base ≤ a ∧ a < b.base + b.len := by
  rw [spanMeetsAny_iff]
  constructor
  · rintro ⟨b, hb, x, hx, h⟩
    obtain rfl : x = a := by simp only at hx; omega
    exact ⟨b, hb, h⟩
  · rintro ⟨b, hb, h⟩
    exact ⟨b, hb, a, ⟨Nat.le_refl a, Nat.lt_succ_self a⟩, h⟩

theorem mem_spanMinus {a b c : Span} (h : c ∈ spanMinus a b) {x : Nat} (hx : c.base ≤ x ∧ x < c.base + c.len) :
    (a.base ≤ x ∧ x < a.base + a.len) ∧ ¬(b.base ≤ x ∧ x < b.base + b.len) := by
  unfold spanMinus at h
  split at h
  · next hm =>
    obtain ⟨y, hy⟩ := (spanMeets_iff a b).1 hm
    simp only [List.mem_filter, List.mem_cons, List.not_mem_nil, or_false] at h
    obtain ⟨rfl | rfl, _⟩ := h <;> simp only at hx <;> omega
  · next hm =>
    obtain rfl : c = a := by simpa using h
    exact ⟨hx, fun hb => hm ((spanMeets_iff c b).2 ⟨x, hx, hb⟩)⟩

theorem spanMinus_covers {a b : Span} {x : Nat} (ha : a.base ≤ x ∧ x < a.base + a.len)
    (hb : ¬(b.base ≤ x ∧ x < b.base + b.len)) : ∃ c ∈ spanMinus a b, c.base ≤ x ∧ x < c.base + c.len := by
  unfold spanMinus
  split
  · by_cases hlt : x < b.base
    · exact ⟨⟨a.base, b.base - a.base⟩, by simp; omega, by simp; omega⟩
    · exact ⟨⟨b.base + b.len, a.base + a.len - (b.base + b.len)⟩, by simp; omega, by simp; omega⟩
  · exact ⟨a, by simp, ha⟩

/-- The addresses of `spansMinus l b` are those of `l` outside `b`. -/
theorem spanMeetsAny_spansMinus (l : List Span) (b : Span) (x : Nat) :
    spanMeetsAny ⟨x, 1⟩ (spansMinus l b) = true ↔
      spanMeetsAny ⟨x, 1⟩ l = true ∧ ¬(b.base ≤ x ∧ x < b.base + b.len) := by
  simp only [spanMeetsAny_address, spansMinus, List.mem_flatMap]
  constructor
  · rintro ⟨c, ⟨a, ha, hc⟩, hx⟩
    obtain ⟨hax, hbx⟩ := mem_spanMinus hc hx
    exact ⟨⟨a, ha, hax⟩, hbx⟩
  · rintro ⟨⟨a, ha, hx⟩, hb⟩
    obtain ⟨c, hc, hcx⟩ := spanMinus_covers hx hb
    exact ⟨c, ⟨a, ha, hc⟩, hcx⟩

/-! ### START -/

/-- Everything START can do (R273). -/
theorem execStart_cases {s : State} {o : Host.Outcome State Fault Refusal} (h : execStart s = o) :
    (bufferLen s ≠ 3 * pixelProduct s ∧
      o = .next (raiseError .shapeMismatch ((s.setWait true).setStatus clearedStatus))) ∨
    (bufferLen s = 3 * pixelProduct s ∧ 2 ^ 32 < imageBase s + bufferLen s ∧
      o = .next (raiseError .addrRange ((s.setWait true).setStatus clearedStatus))) ∨
    (bufferLen s = 3 * pixelProduct s ∧ imageBase s + bufferLen s ≤ 2 ^ 32 ∧
      ((∃ r, startRefusal s = some r ∧ o = .refused r) ∨
        (startRefusal s = none ∧ o = .next (beginRun ((s.setWait true).setStatus clearedStatus))))) := by
  subst h
  unfold execStart
  split
  · exact .inl ⟨by assumption, rfl⟩
  · split
    · exact .inr (.inl ⟨by simp_all, by assumption, rfl⟩)
    · refine .inr (.inr ⟨by simp_all, by omega, ?_⟩)
      split
      · exact .inl ⟨_, by assumption, rfl⟩
      · exact .inr ⟨by assumption, rfl⟩

/-- A command never faults. -/
theorem exec_not_fault (i : Instr) (s : State) (r : Fault) : exec i s ≠ .fault r := by
  cases i with
  | nop => simp [exec, execNop]
  | start =>
    intro h
    rcases execStart_cases (s := s) rfl with ⟨_, h'⟩ | ⟨_, _, h'⟩ | ⟨_, _, ⟨_, _, h'⟩ | ⟨_, h'⟩⟩ <;>
      simp [exec, h'] at h

/-! ### The memory of a stopped run -/

/-- Byte `k` of a stopped run's buffer (R288, R342). -/
theorem mixedMemory_spec {s : State} (h : s.mem.wf = true) (hr : imageBase s + bufferLen s ≤ 2 ^ 32) :
    (mixedMemory s).wf = true ∧
      ∀ a, (mixedMemory s).read a =
        if imageBase s ≤ a ∧ a < imageBase s + bufferLen s then
          if Config.freeChoice (s.draws + (a - imageBase s)) then
            adjustedByte s.startMem (imageBase s) s.csr.factor (a - imageBase s)
          else s.startMem.read a
        else s.mem.read a := by
  unfold mixedMemory
  generalize hn : bufferLen s = n at hr
  clear hn
  induction n with
  | zero => exact ⟨h, fun a => by rw [if_neg (by omega)]; rfl⟩
  | succ n ih =>
    obtain ⟨hw, hread⟩ := ih (by omega)
    rw [List.range_succ, List.foldl_append]
    refine ⟨Memory.write_wf hw (by omega), fun a => ?_⟩
    simp only [List.foldl_cons, List.foldl_nil]
    rw [Memory.read_write hw, hread]
    by_cases ha : a = imageBase s + n
    · subst ha
      simp
    · rw [if_neg ha]
      by_cases hin : imageBase s ≤ a ∧ a < imageBase s + n
      · have hin' : imageBase s ≤ a ∧ a < imageBase s + (n + 1) := by omega
        simp only [if_pos hin, if_pos hin']
      · rw [if_neg hin, if_neg (by omega)]

/-! ### Batches -/

@[simp] theorem planarLoad_length (s : State) (c : Nat) : (planarLoad s c).length = s.params.lanes := by
  simp [planarLoad]

@[simp] theorem planarGain_length (s : State) (c : Nat) : (planarGain s c).length = s.params.lanes := by
  simp [planarGain]

/-- An active lane of channel `c` after the gain (R212, R213). -/
theorem planarGain_getD {s : State} {c j : Nat} (hc : c < 3) (hj : j < planarActive s) :
    (planarGain s c).getD j 0 = gain (s.mem.read (planarBase s + (3 * j + c))) (channelFactor s c) := by
  have hn : j < s.params.lanes := lt_of_lt_of_le hj (Nat.min_le_left _ _)
  rw [planarGain, gainVec_getD (by simpa using hn) (by simpa using hn), broadcast_getD hn, planarLoad,
    load3_getD hn hj hc]

@[simp] theorem planarOut_length (s : State) : (planarOut s).length = 3 * planarActive s := by simp [planarOut]

/-- Byte `k` of what a planar batch stores (R214). -/
theorem planarOut_getD {s : State} {k : Nat} (h : k < 3 * planarActive s) :
    (planarOut s).getD k 0 = gain (s.mem.read (planarBase s + k)) (channelFactor s (k % 3)) := by
  have hk : 3 * (k / 3) + k % 3 = k := by omega
  have h3 : k % 3 < 3 := Nat.mod_lt _ (by decide)
  have := planarGain_getD (s := s) h3 (j := k / 3) (by omega)
  rw [hk] at this
  rw [planarOut, interleave3_getD h, ← this]
  rcases (by omega : k % 3 = 0 ∨ k % 3 = 1 ∨ k % 3 = 2) with h | h | h <;> simp [h]

/-- A planar batch stays inside the buffer (R86). -/
theorem planar_in_buffer {s : State} (h : s.seq.pos < pixelCount s) :
    imageBase s ≤ planarBase s ∧ planarBase s + 3 * planarActive s ≤ imageBase s + bufferLen s := by
  have : planarActive s ≤ pixelCount s - s.seq.pos := Nat.min_le_right _ _
  unfold planarBase pixelCount at *
  omega

theorem planarBatch_wf {s : State} (h : s.mem.wf = true) (hr : imageBase s + bufferLen s ≤ 2 ^ 32)
    (hp : s.seq.pos < pixelCount s) : (planarBatch s).mem.wf = true := by
  have := planar_in_buffer hp
  exact Memory.writeBytes_wf h (by rw [interleave3_length]; omega)

/-- Memory after a planar batch (R214): the bytes of its active pixels gained, every other byte as it was. -/
theorem planarBatch_read {s : State} (h : s.mem.wf = true) (hr : imageBase s + bufferLen s ≤ 2 ^ 32)
    (hp : s.seq.pos < pixelCount s) (a : Nat) :
    (planarBatch s).mem.read a =
      if planarBase s ≤ a ∧ a < planarBase s + 3 * planarActive s then
        gain (s.mem.read a) (channelFactor s ((a - imageBase s) % 3))
      else s.mem.read a := by
  have hb := planar_in_buffer hp
  have := Memory.read_writeBytes (m := s.mem) (base := planarBase s) (vs := planarOut s) h
    (by rw [planarOut_length]; omega) a
  rw [planarOut_length] at this
  refine (show (planarBatch s).mem.read a = _ from this).trans ?_
  split
  · next hin =>
    rw [planarOut_getD (by omega), show planarBase s + (a - planarBase s) = a by omega]
    congr 2
    unfold planarBase at hin ⊢
    omega
  · rfl

theorem interleavedGain_length {s : State} (h : s.data.ft.length = s.params.lanes) :
    (interleavedGain s).length = s.params.lanes := by simp [interleavedGain, interleavedLoad, h]

theorem interleavedActive_le (s : State) : interleavedActive s ≤ s.params.lanes := Nat.min_le_left _ _

/-- An active lane of VI after the gain (R244, R245). -/
theorem interleavedGain_getD {s : State} {i : Nat} (hf : s.data.ft.length = s.params.lanes)
    (hi : i < interleavedActive s) :
    (interleavedGain s).getD i 0 = gain (s.mem.read (interleavedBase s + i)) (s.data.ft.getD i 0) := by
  have hn : i < s.params.lanes := lt_of_lt_of_le hi (interleavedActive_le s)
  rw [interleavedGain, gainVec_getD (by simpa [interleavedLoad] using hn) (by omega), interleavedLoad,
    loadBytes_getD hn hi]

theorem interleaved_in_buffer {s : State} (h : s.seq.pos < bufferLen s) :
    imageBase s ≤ interleavedBase s ∧ interleavedBase s + interleavedActive s ≤ imageBase s + bufferLen s := by
  have : interleavedActive s ≤ bufferLen s - s.seq.pos := Nat.min_le_right _ _
  unfold interleavedBase
  omega

theorem interleavedBatch_wf {s : State} (h : s.mem.wf = true) (hr : imageBase s + bufferLen s ≤ 2 ^ 32)
    (hp : s.seq.pos < bufferLen s) : (interleavedBatch s).mem.wf = true := by
  have := interleaved_in_buffer hp
  refine Memory.writeBytes_wf h ?_
  have := List.length_take_le (interleavedActive s) (interleavedGain s)
  omega

/-- Memory after an interleaved iteration (R246): its active bytes gained against FT, every other byte as it was. -/
theorem interleavedBatch_read {s : State} (h : s.mem.wf = true) (hr : imageBase s + bufferLen s ≤ 2 ^ 32)
    (hp : s.seq.pos < bufferLen s) (hf : s.data.ft.length = s.params.lanes) (a : Nat) :
    (interleavedBatch s).mem.read a =
      if interleavedBase s ≤ a ∧ a < interleavedBase s + interleavedActive s then
        gain (s.mem.read a) (s.data.ft.getD (a - interleavedBase s) 0)
      else s.mem.read a := by
  have hb := interleaved_in_buffer hp
  have hl : ((interleavedGain s).take (interleavedActive s)).length = interleavedActive s := by
    rw [List.length_take, interleavedGain_length hf]
    exact Nat.min_eq_left (interleavedActive_le s)
  have := Memory.read_writeBytes (m := s.mem) (base := interleavedBase s)
    (vs := (interleavedGain s).take (interleavedActive s)) h (by omega) a
  rw [hl] at this
  refine (show (interleavedBatch s).mem.read a = _ from this).trans ?_
  split
  · next hin =>
    have hi : a - interleavedBase s < interleavedActive s := by omega
    have hg := interleavedGain_getD hf hi
    rw [show interleavedBase s + (a - interleavedBase s) = a by omega] at hg
    rw [← hg]
    simp [List.getD_eq_getElem?_getD, hi]
  · rfl

/-! ### One step -/

/-- Everything a step that answers a next state can be: the platform's reset, the Sequencer's move, or the host's. -/
theorem step_next {s t : State} (h : step s = .next t) :
    legalBuild s.params = true ∧ runInMemory s = true ∧
      ((s.inputs.head? = some .reset ∧ t = applyReset { s with inputs := s.inputs.tail }) ∨
        (s.inputs.head? ≠ some .reset ∧ s.seq.state = .run ∧
          t = sequencerStep (decide (s.inputs.head? = some .memError)) { s with inputs := s.inputs.tail }) ∨
        (s.inputs.head? ≠ some .reset ∧ s.seq.state = .idle ∧
          hostStep { s with inputs := s.inputs.tail } = .next t)) := by
  unfold step systemStep at h
  split at h
  · cases h
  next hb =>
  split at h
  · cases h
  next hm =>
  refine ⟨by simpa using hb, by simpa using hm, ?_⟩
  have agent : ∀ (m : Bool) (u : State), agentStep m u = .next t →
      (u.seq.state = .run ∧ t = sequencerStep m u) ∨ (u.seq.state = .idle ∧ hostStep u = .next t) := by
    intro m u hu
    unfold agentStep at hu
    split at hu
    · exact .inl ⟨by assumption, by simpa using hu.symm⟩
    · exact .inr ⟨by assumption, hu⟩
  unfold inputStep at h
  split at h
  · next hi =>
    have hs : ({ s with inputs := s.inputs.tail } : State) = s := by
      cases s
      simp_all
    rw [hs]
    simpa [hi] using agent _ _ h
  · next hi => simpa [hi] using agent _ _ h
  · next hi => simpa [hi] using agent _ _ h
  · next hi => exact .inl ⟨by simp [hi], by simpa [hi] using h.symm⟩

end Sys2Proof.Machine
end

