-- ==== Sys2Proof/Laws/Host.lean ====
section
/-! SUPPORT. What a step of the host can do, said once: nothing, a command, or an access that leaves the Sequencer, the
datapath and the parameters alone. -/

namespace Sys2Proof.Machine

/-- A step of the host that issues no command (R41, R42; log 13): at most one register takes the value `writeReg` gives it
and at most one byte of memory is written; the rest of the block is as it was. -/
structure PlainAccess (s t : State) : Prop where
  params : t.params = s.params
  seq : t.seq = s.seq
  data : t.data = s.data
  wait : t.host.wait = s.host.wait
  inputs : t.inputs = s.inputs
  trace : t.trace = s.trace
  startMem : t.startMem = s.startMem
  draws : t.draws = s.draws
  csr : ∃ r w, t.csr = writeReg r w s.csr
  mem : t.mem = s.mem ∨ ∃ (a : Word) (v : Byte), t.mem = s.mem.write a.toNat v

/-- A command the host issued (R270): `u` is what the command left, and the write completes unless the host waits. -/
def CommandIssued (s t : State) : Prop :=
  ∃ u, ((∃ i, exec i s = .next u) ∨ u = illegalCommand s) ∧ t = if u.host.wait then u else u.respond .done

theorem completeCommand_next {o : Host.Outcome State Fault Refusal} {t : State} (h : completeCommand o = .next t) :
    ∃ u, o = .next u ∧ t = if u.host.wait then u else u.respond .done := by
  cases o with
  | next u => exact ⟨u, rfl, by simpa [completeCommand] using h.symm⟩
  | fault _ => cases h
  | refused _ => cases h

theorem writeCmd_next {w : Word} {s t : State} (h : writeCmd w s = .next t) : CommandIssued s t := by
  unfold writeCmd at h
  split at h
  · obtain ⟨u, hu, ht⟩ := completeCommand_next h
    exact ⟨u, .inl ⟨_, hu⟩, ht⟩
  · obtain ⟨u, hu, ht⟩ := completeCommand_next h
    exact ⟨u, .inr (by simpa using hu.symm), ht⟩

/-- An access that answers `r` and changes nothing else. -/
theorem plain_respond (s : State) (r : Response) : PlainAccess s (s.respond r) :=
  ⟨rfl, rfl, rfl, rfl, rfl, rfl, rfl, rfl, ⟨.cap, 0, rfl⟩, .inl rfl⟩

theorem hostRead_next {addr : Word} {size : AccessSize} {s t : State} (h : hostRead addr size s = .next t) :
    PlainAccess s t := by
  unfold hostRead at h
  split at h
  · cases h; exact plain_respond s _
  · cases h
  · unfold hostLoad at h
    split at h
    · cases h
    split at h
    · cases h
    split at h
    · cases h
    · cases h; exact plain_respond s _

theorem hostWrite_next {addr : Word} {size : AccessSize} {data : Word} {s t : State}
    (h : hostWrite addr size data s = .next t) : PlainAccess s t ∨ CommandIssued s t := by
  unfold hostWrite at h
  split at h
  · exact .inr (writeCmd_next h)
  · cases h
    exact .inl ⟨rfl, rfl, rfl, rfl, rfl, rfl, rfl, rfl, ⟨_, _, rfl⟩, .inl rfl⟩
  · cases h
  · unfold hostStore at h
    split at h
    · cases h
    split at h
    · cases h
    · cases h
      refine .inl ⟨rfl, rfl, rfl, ?_, rfl, rfl, rfl, rfl, ⟨.cap, 0, rfl⟩, .inr ⟨addr, _, rfl⟩⟩
      simp only [State.respond_host]
      split <;> rfl

theorem hostOp_next {op : HostOp} {s t : State} (h : hostOp op s = .next t) : PlainAccess s t ∨ CommandIssued s t := by
  cases op with
  | read addr size => exact .inl (hostRead_next h)
  | write addr size data => exact hostWrite_next h
  | clean r =>
    cases h
    exact .inl ⟨rfl, rfl, rfl, rfl, rfl, rfl, rfl, rfl, ⟨.cap, 0, rfl⟩, .inl rfl⟩
  | invalidate r =>
    simp only [hostOp, hostInvalidate] at h
    split at h
    · cases h
    · cases h
      exact .inl ⟨rfl, rfl, rfl, rfl, rfl, rfl, rfl, rfl, ⟨.cap, 0, rfl⟩, .inl rfl⟩

/-- Everything a step of the host can do (R50, R270). -/
theorem hostStep_next {s t : State} (h : hostStep s = .next t) :
    t = s ∨ ∃ op rest, s.host.wait = false ∧ s.host.queue = op :: rest ∧
      (PlainAccess { s with host := { s.host with queue := rest } } t ∨
        CommandIssued { s with host := { s.host with queue := rest } } t) := by
  unfold hostStep at h
  split at h
  · cases h; exact .inl rfl
  · next hw =>
    split at h
    · cases h; exact .inl rfl
    · next hq => exact .inr ⟨_, _, Bool.eq_false_iff.mpr hw, hq, hostOp_next h⟩

end Sys2Proof.Machine
end

