-- ==== Sys2Proof/Laws/Operands.lean ====
section
/-! SUPPORT. The bit fields of command words and registers as arithmetic on naturals, and the lane primitives likewise. -/

namespace Sys2Proof

theorem cmdOp_toNat (w : Word) : (cmdOp w).toNat = w.toNat % 16 := by
  simp [cmdOp, BitVec.extractLsb']

theorem cmdMbz_toNat (w : Word) : (cmdMbz w).toNat = w.toNat / 16 := by
  have := w.isLt
  simp [cmdMbz, BitVec.extractLsb', Nat.shiftRight_eq_div_pow]
  omega

end Sys2Proof

namespace Sys2Proof.Machine

theorem factorField_toNat (w : Word) (c : Nat) : (factorField w c).toNat = w.toNat / 2 ^ (8 * c) % 256 := by
  simp [factorField, BitVec.extractLsb', Nat.shiftRight_eq_div_pow]

theorem append_toNat {m n : Nat} (x : BitVec m) (y : BitVec n) : (x ++ y).toNat = x.toNat * 2 ^ n + y.toNat := by
  rw [BitVec.toNat_append, ← Nat.shiftLeft_add_eq_or_of_lt y.isLt, Nat.shiftLeft_eq]

theorem factorWord_toNat (fr fg fb : Byte) :
    (factorWord fr fg fb).toNat = fr.toNat + 256 * fg.toNat + 65536 * fb.toNat := by
  have := fr.isLt
  have := fg.isLt
  have := fb.isLt
  simp only [factorWord, append_toNat]
  simp
  omega

theorem clampFactor_toNat (f : Byte) : (clampFactor f).toNat = min f.toNat 128 := by
  unfold clampFactor
  split
  · omega
  · simp
    omega

theorem capWord_toNat (p : Params) (h : p.lanes ≤ 65535) :
    (capWord p).toNat = p.lanes + 65536 * strategyCode p.strategy := by
  simp only [capWord, append_toNat, BitVec.toNat_ofNat]
  cases p.strategy <;> simp [strategyCode] <;> omega

end Sys2Proof.Machine
end

