-- ==== Sys2Proof/Laws/PerInstr.lean ====
section
/-! SUPPORT. The per-command families: the format of each command's word. -/

namespace Sys2Proof.Laws

/-- R111, R118: a command is well formed, its word has MBZ zero and an OP below 2, and no other command has that word. -/
def CmdFormat.Statement (i : Instr) : Prop :=
  i.wellFormed = true ∧ cmdMbz (encode i) = 0 ∧ (cmdOp (encode i)).toNat < 2 ∧ ∀ j, encode j = encode i → j = i

theorem CmdFormat.nop : CmdFormat.Statement .nop :=
  ⟨rfl, by decide, by decide, fun j h => by cases j <;> first | rfl | exact absurd h (by decide)⟩

theorem CmdFormat.start : CmdFormat.Statement .start :=
  ⟨rfl, by decide, by decide, fun j h => by cases j <;> first | rfl | exact absurd h (by decide)⟩

end Sys2Proof.Laws
end

