-- ==== Sys2Proof/Laws/Window.lean ====
section
/-! SUPPORT. The legal builds and the register window as propositions, and the step that takes the host's next operation. -/

namespace Sys2Proof.Machine

open Sys2Proof.Safety

/-- The legal builds (R8, 92_eei_decisions.md "Open parameters"). -/
theorem legalBuild_iff (p : Params) :
    legalBuild p = true ↔ p.strategy.minLanes ≤ p.lanes ∧ p.lanes ≤ 65535 ∧ p.csrBase.toNat % 4 = 0 ∧
      p.csrBase.toNat + 32 ≤ 2 ^ 32 := by
  simp [legalBuild, Params.wellFormed, and_assoc]

theorem touchesWindow_iff (p : Params) (addr : Word) (size : AccessSize) :
    touchesWindow p addr size = true ↔
      addr.toNat < p.csrBase.toNat + 32 ∧ p.csrBase.toNat < addr.toNat + size.bytes := by
  simp [touchesWindow]

/-- An access that touches no byte of the window is to system memory (R80). -/
theorem accessTarget_memory {p : Params} {addr : Word} {size : AccessSize} (h : touchesWindow p addr size = false) :
    accessTarget p addr size = .memory := by
  simp [accessTarget, h]

/-- The step at a state whose next move is the host's (R270): its next operation, off the queue. -/
theorem step_of_nextOp {s : State} {op : HostOp} {rest : List HostOp} (h : NextOp s op rest) :
    step s = hostOp op (taken s rest) := by
  have hhost : hostStep { s with inputs := s.inputs.tail } = hostOp op (taken s rest) := by
    simp only [hostStep, h.free, h.queue, taken, Bool.false_eq_true, if_false]
  have hin := h.input
  unfold step systemStep
  rw [if_neg (by simp [h.build]), if_neg (by simp [runInMemory, h.idle]), ← hhost]
  unfold inputStep
  split
  · next hi =>
    have hs : ({ s with inputs := s.inputs.tail } : State) = s := by
      cases s
      simp_all
    rw [hs]
    simp [agentStep, h.idle]
  · next hi => simp only [agentStep, h.idle, hi, List.tail_cons]
  · next hi => simp only [agentStep, h.idle, hi, List.tail_cons]
  · next hi => simp [hi] at hin

/-- The step of a run that nothing disturbs (R283). -/
theorem step_of_running {s : State} (h : Running s) :
    step s = .next (sequencerStep false { s with inputs := s.inputs.tail }) := by
  unfold step systemStep
  rw [if_neg (by simp [h.build]), if_neg (by simpa [runInMemory, h.run] using h.range)]
  have hin := h.input
  unfold inputStep
  split
  · next hi =>
    have hs : ({ s with inputs := s.inputs.tail } : State) = s := by
      cases s
      simp_all
    rw [hs]
    simp [agentStep, h.run]
  · next hi => simp only [agentStep, h.run, hi, List.tail_cons]
  · next hi => simp [hi] at hin
  · next hi => simp [hi] at hin

end Sys2Proof.Machine
end

