-- ==== Sys2Proof/Laws/Run.lean ====
section
/-! SUPPORT. Several steps of the machine, one at a time. -/

namespace Sys2Proof.Machine

theorem coreRun_succ {M : Host.Core} {s s' : M.State} (n : Nat) (h : M.step s = .next s') :
    M.run (n + 1) s = M.run n s' := by
  rw [Host.Core.run, h]

theorem run_zero (s : State) : core.run 0 s = .next s := rfl

/-- The steps of a run that begins with a step to `s'` are those of a run from `s'`. -/
theorem run_succ_of_next {s s' : State} (n : Nat) (h : step s = .next s') : core.run (n + 1) s = core.run n s' :=
  coreRun_succ (M := core) n h

end Sys2Proof.Machine
end

