-- ==== Sys2Proof/Tests/Slice0.lean ====
section
/-! SUPPORT. Tests against the vectors of 95_test_vectors.md (their names in the comments), and a witness for the hypotheses
of each statement. -/

namespace Sys2Proof.Tests

open Sys2Proof.Machine Sys2Proof.Safety

/-! ### Small states -/

/-- The build with this strategy and lane count, its window at 0x40000000. -/
def build (st : Strategy) (n : Nat) : Params := { Params.reference with strategy := st, lanes := n }

/-- The nine bytes of the scenario at 0x1000; the byte at 0x1006 is 0, so memory does not list it. -/
def scenarioMem : Memory :=
  [(0x1000, 10), (0x1001, 20), (0x1002, 30), (0x1003, 100), (0x1004, 150), (0x1005, 200), (0x1007, 255), (0x1008, 128)]

/-- The registers of programs P1 and P2 when START is written. -/
def scenarioCsr : Csr := ⟨0, 0x1000, 9, 3, 1, 0x00204080⟩

/-- The scenario on a build, IDLE, with nothing to issue. -/
def scenario (p : Params) : State := { State.resetOf p with csr := scenarioCsr, mem := scenarioMem }

def il4 : State := scenario (build .interleaved 4)

def pl4 : State := scenario (build .planar 4)

def pl2 : State := scenario (build .planar 2)

/-- The run that START begins in `s`. -/
def running (s : State) : State := beginRun (s.setWait true)

/-- `s` with one host operation to issue. -/
def withOp (s : State) (op : HostOp) : State := { s with host := { s.host with queue := [op] } }

/-- `s` with these registers. -/
def withCsr (s : State) (c : Csr) : State := { s with csr := c }

/-- `s` with its run at this position. -/
def atPos (s : State) (n : Nat) : State := { s with seq := { s.seq with pos := n } }

/-- Does the outcome go on, to a state with this property? -/
def goesOn (o : Host.Outcome State Fault Refusal) (p : State → Bool) : Bool :=
  match o with
  | .next s => p s
  | .fault _ => false
  | .refused _ => false

/-- The refusal of an outcome. -/
def refusalOf (o : Host.Outcome State Fault Refusal) : Option Refusal :=
  match o with
  | .next _ => none
  | .fault _ => none
  | .refused r => some r

/-! ### Well-formedness: one ill-formed build for each check (R8, R254, R10) -/

theorem test_wf_reference : Params.reference.wellFormed = true := by decide

theorem test_wf_too_few_lanes :
    (build .interleaved 2).wellFormed = false ∧ (build .planar 0).wellFormed = false ∧
      (build .interleaved 3).wellFormed = true ∧ (build .planar 1).wellFormed = true := by decide

theorem test_wf_too_many_lanes :
    (build .planar 65536).wellFormed = false ∧ (build .planar 65535).wellFormed = true := by decide

theorem test_wf_window_unaligned :
    Params.wellFormed { Params.reference with csrBase := 0x40000002#32 } = false := by decide

theorem test_wf_window_past_the_top :
    Params.wellFormed { Params.reference with csrBase := 0xFFFFFFE4#32 } = false ∧
      Params.wellFormed { Params.reference with csrBase := 0xFFFFFFE0#32 } = true := by decide

theorem test_wf_commands : Instr.wellFormed .nop = true ∧ Instr.wellFormed .start = true := by decide

/-! ### Decoding: words written out from R111, MBZ [31:4] above OP [3:0] -/

/-- NOP: OP 0000 (R112). -/
theorem test_decode_nop : decode 0b0000000000000000000000000000_0000#32 = .ok .nop := by decide

/-- START: OP 0001 (R112). -/
theorem test_decode_start : decode 0b0000000000000000000000000000_0001#32 = .ok .start := by decide

/-- Reserved OP values 2 and 15 (R113, V-C-6). -/
theorem test_decode_reserved_op :
    decode 0b0000000000000000000000000000_0010#32 = .error (.reservedOp 2) ∧
      decode 0b0000000000000000000000000000_1111#32 = .error (.reservedOp 15) := by decide

/-- Nonzero MBZ below and above, with the OP of NOP and of START (V-C-7). -/
theorem test_decode_nonzero_mbz :
    decode 0b0000000000000000000000000001_0000#32 = .error (.nonzeroMbz 1) ∧
      decode 0b1000000000000000000000000000_0001#32 = .error (.nonzeroMbz 0x8000000) := by decide

theorem test_encode_words : encode .nop = 0x00000000#32 ∧ encode .start = 0x00000001#32 := by decide

theorem test_decodeTableWord :
    decodeTableWord 32 0 = some .nop ∧ decodeTableWord 32 1 = some .start ∧ decodeTableWord 32 2 = none ∧
      decodeTableWord 32 0x80000001 = none := by decide

/-- A placed command is the first thing the machine runs after reset: NOP completes its write, START begins a run. -/
theorem test_withFetchWord :
    goesOn (step (State.reset.withFetchWord 32 0)) (fun t => t.host.responses = [.done] && t.seq.state = .idle) = true ∧
      goesOn (step (State.reset.withFetchWord 32 1)) (fun t => t.host.responses = [] && t.seq.state = .run) = true := by
  decide

/-! ### The lane datapath -/

/-- V-G-1 to V-G-17. -/
theorem test_gain_rows :
    ([(10, 128, 20), (128, 64, 128), (255, 128, 255), (127, 128, 254), (128, 128, 255), (200, 82, 255), (199, 82, 254),
      (255, 32, 127), (3, 32, 1), (255, 1, 3), (1, 63, 0), (1, 64, 1), (0, 128, 0), (255, 0, 0), (254, 64, 254),
      (128, 127, 254), (100, 100, 156)] : List (Byte × Byte × Byte)).all (fun r => gain r.1 r.2.1 == r.2.2) = true := by
  decide +kernel

/-- V-G-3: each stage, the second doubling saturating. -/
theorem test_gain_stages :
    widenMultiply 255 128 = 0x7F80#16 ∧ saturatingDouble 0x7F80#16 = 0xFF00#16 ∧
      saturatingDouble 0xFF00#16 = 0xFFFF#16 ∧ narrowHighByte 0xFFFF#16 = 0xFF#8 := by decide

/-- V-P-1, V-P-2. -/
theorem test_primitive_corners :
    saturatingDouble 32767 = 65534#16 ∧ saturatingDouble 32768 = 65535#16 ∧ narrowHighByte 0x1234 = 0x12#8 ∧
      narrowHighByte 0x00FF = 0x00#8 := by decide

/-- V-P-3. -/
theorem test_deinterleave :
    deinterleave [10, 20, 30, 100, 150, 200] 0 2 (fun _ => 0) = [10, 100] ∧
      deinterleave [10, 20, 30, 100, 150, 200] 1 2 (fun _ => 0) = [20, 150] ∧
      deinterleave [10, 20, 30, 100, 150, 200] 2 2 (fun _ => 0) = [30, 200] ∧
      interleave3 [10, 100] [20, 150] [30, 200] 2 = [10, 20, 30, 100, 150, 200] := by decide

/-- V-P-4, V-P-5. -/
theorem test_masking :
    activeCount 4 9 = 4 ∧ activeCount 4 3 = 3 ∧
      (storeBytes scenarioMem 0x1000 [20, 20, 15, 77] 3).readBytes 0x1000 4 = [20, 20, 15, 100] := by decide

/-- V-IL-S: strides, and the table of N = 7. -/
theorem test_factor_table :
    [3, 4, 5, 7, 16, 17, 21, 48].map alignedStride = [3, 3, 3, 6, 15, 15, 21, 48] ∧
      factorTable 7 0x00204080 = [128, 64, 32, 128, 64, 32, 64] := by decide

/-! ### Registers -/

/-- V-C-1, V-C-2. -/
theorem test_cap : capWord (build .interleaved 4) = 0x00020004#32 ∧ capWord (build .planar 2) = 0x00010002#32 := by decide

/-- V-C-3, V-C-4, R115. -/
theorem test_factor_write :
    storedFactor 0x00FF8140 = 0x00808040#32 ∧ storedFactor 0xFFFFFFFF = 0x00808080#32 ∧
      factorWord 128 64 32 = 0x00204080#32 := by decide

/-- V-C-6, V-C-7: an illegal word leaves 0x22 and completes. -/
theorem test_illegal_word :
    goesOn (step (withOp il4 (.write 0x40000004 .word 0x80000001)))
      (fun t => t.csr = { scenarioCsr with status := 0x22 } && t.mem = il4.mem && t.host.responses = [.done]) = true := by
  decide

/-- V-C-9, V-C-10: CMD reads 0, and a write of STATUS is ignored. -/
theorem test_register_ports :
    goesOn (step (withOp il4 (.read 0x40000004 .word))) (fun t => t.host.responses = [.data 0]) = true ∧
      goesOn (step (withOp (il4.setStatus 1) (.write 0x40000008 .word 0))) (fun t => t.csr.status = 1) = true := by decide

/-- R41, U14: a program with a halfword read of IMG_BASE is refused. -/
theorem test_narrow_access :
    refusalOf (step (withOp il4 (.read 0x4000000C .half))) = some .windowBusError := by decide

/-- R341, R342: reset in a run leaves the reset registers and the place of the batch cut short. -/
theorem test_reset_in_run :
    goesOn (step { running il4 with inputs := [.reset] })
      (fun t => t.csr = Csr.atReset && t.seq.state = .idle && t.trace = [.failed ⟨0x1000, 4⟩]) = true := by decide +kernel

/-- R87: a batch that listed a byte twice would count two reads of it. -/
theorem test_counts_are_of_accesses :
    readCount 0x1000 [.batch [(0x1000, 10), (0x1000, 10)] [(0x1000, 20)], .failed ⟨0x1000, 1⟩] = 2 ∧
      writeCount 0x1000 [.batch [(0x1000, 10), (0x1000, 10)] [(0x1000, 20)], .failed ⟨0x1000, 1⟩] = 1 := by decide

/-! ### Commands -/

/-- V-C-8. -/
theorem test_nop : goesOn (exec .nop (il4.setStatus 0x22)) (fun t => t = il4.setStatus 0x22) = true := by decide

/-- V-C-12, V-C-13, V-C-15, V-C-16: the errors of START and their order. -/
theorem test_start_errors :
    [(⟨0, 0x1000, 9, 2, 2, 0⟩ : Csr), ⟨0, 0, 0, 0x10000, 0x10000, 0⟩, ⟨0, 0xFFFFFFF8, 9, 3, 1, 0⟩,
      ⟨0, 0xFFFFFFF8, 9, 2, 2, 0⟩].map
        (fun c => goesOn (exec .start (withCsr il4 c)) (fun t => t.csr.status = 0x12 && t.mem = il4.mem)) =
      [true, true, false, true] ∧
      goesOn (exec .start (withCsr il4 ⟨0, 0xFFFFFFF8, 9, 3, 1, 0⟩)) (fun t => t.csr.status = 0x32) = true := by decide

/-- V-C-14: B + L = 2^32 exactly passes; R278: the run begins with FT of V-IL-4. -/
theorem test_start_begins :
    goesOn (exec .start (withCsr il4 ⟨0x22, 0xFFFFFFF7, 9, 3, 1, 0x00204080⟩))
      (fun t => t.csr.status = 0 && t.seq = ⟨.run, 0⟩ && t.data.ft = [128, 64, 32, 64] && t.host.wait) = true := by decide

/-- V-IL-4, iteration 0: bytes 0 to 3 become 20, 20, 15, 100. -/
theorem test_interleaved_first_iteration :
    goesOn (step (running il4))
      (fun t => t.mem.readBytes 0x1000 9 = [20, 20, 15, 100, 150, 200, 0, 255, 128] && t.seq.pos = 3 &&
        t.trace = [.batch [(0x1000, 10), (0x1001, 20), (0x1002, 30), (0x1003, 100)]
          [(0x1000, 20), (0x1001, 20), (0x1002, 15), (0x1003, 100)]]) = true := by decide +kernel

/-- V-IL-4, iteration 2, three lanes active: bytes 6 to 8 become 0, 255, 64. -/
theorem test_interleaved_last_iteration :
    goesOn (step (atPos (running il4) 6))
      (fun t => t.mem.readBytes 0x1006 4 = [0, 255, 64, 0] && t.seq.pos = 9) = true := by decide +kernel

/-- V-PL-4: one batch of three active lanes. -/
theorem test_planar_batch :
    goesOn (step (running pl4))
      (fun t => t.mem.readBytes 0x1000 9 = [20, 20, 15, 200, 150, 100, 0, 255, 64] && t.data.vr.take 3 = [20, 200, 0] &&
        t.data.vg.take 3 = [20, 150, 255] && t.data.vb.take 3 = [15, 100, 64] && t.seq.pos = 4) = true := by
  decide +kernel

/-- R279, R280: the loop test that ends a run. -/
theorem test_run_ends :
    goesOn (step (atPos (running pl4) 4))
      (fun t => t.csr.status = 1 && t.seq.state = .idle && !t.host.wait && t.host.responses = [.done]) = true := by
  decide +kernel

/-! ### The host program and the encoder -/

/-- Program P1, lines 2 to 8, is one `adjust` line (R121). -/
theorem test_adjust_line :
    (expandLine (build .interleaved 4) (.adjust 0x1000 9 3 1 .nan .nan .nan)).length = 7 ∧
      setfixOps (build .interleaved 4) 128 64 32 = [.write 0x4000001C .word 0x00204080] := by
  refine ⟨by simp [expandLine, setfOps, setfixOps], by decide⟩

/-- 95_test_vectors.md section 2: the ties, which round up. -/
theorem test_encode_ties :
    encodeFactor (.real (65 / 128)) = 33 ∧ encodeFactor (.real (1 / 128)) = 1 ∧ encodeFactor (.real (255 / 128)) = 128 ∧
      encodeFactor (.real (1 / 3)) = 21 ∧ encodeFactor (.real (251 / 250)) = 64 := by
  norm_num [encodeFactor, clampRat, roundHalfUp, clampNat]
  decide

/-- V-O-1, V-O-4. -/
theorem test_oracle_rows : oracle 255 (1 / 2) = 128 ∧ oracle 224 (3 / 128) = 5 := by
  norm_num [oracle, clampRat, roundHalfUp, clampNat, show (255 : Byte).toNat = 255 from rfl,
    show (224 : Byte).toNat = 224 from rfl]
  decide

/-- R286, R287. -/
theorem test_adjust_outcome :
    adjustOutcome 0x00000001 = .returned ∧ adjustOutcome 0x00000012 = .shapeMismatch ∧
      adjustOutcome 0x00000042 = .platformError := by decide

/-! ### Refusals -/

/-- A build of two interleaved lanes is refused at once (R254). -/
theorem test_illegal_build : refusalOf (step (State.resetOf (build .interleaved 2))) = some .illegalBuild := by decide

/-! ### Witnesses: states and operands that meet the hypotheses of each statement, clause by clause -/

/-- A state in which the host's next operation is `op`. -/
theorem nextOp_interleaved (op : HostOp) : NextOp (withOp il4 op) op [] :=
  ⟨(by decide : legalBuild il4.params = true), rfl, rfl, rfl, (by decide : il4.inputs.head? ≠ some .reset)⟩

theorem nextOp_planar (op : HostOp) : NextOp (withOp pl4 op) op [] :=
  ⟨(by decide : legalBuild pl4.params = true), rfl, rfl, rfl, (by decide : pl4.inputs.head? ≠ some .reset)⟩

theorem startable_il4 : Startable il4 := ⟨by decide, by decide, by decide, by decide⟩

theorem startable_pl4 : Startable pl4 := ⟨by decide, by decide, by decide, by decide⟩

theorem startable_pl2 : Startable pl2 := ⟨by decide, by decide, by decide, by decide⟩

theorem running_il4 (n : Nat) : Running (atPos (running il4) n) :=
  ⟨(by decide : legalBuild il4.params = true), rfl, (by decide : imageBase il4 + bufferLen il4 ≤ 2 ^ 32), .inl rfl⟩

theorem running_pl4 (n : Nat) : Running (atPos (running pl4) n) :=
  ⟨(by decide : legalBuild pl4.params = true), rfl, (by decide : imageBase pl4 + bufferLen pl4 ≤ 2 ^ 32), .inl rfl⟩

/-- Each of the three cases, at its boundary words. -/
theorem witness_DecodeIsTotalAndThreeWay :
    (0x00000002#32 ≠ 0x00000000#32 ∧ 0x00000002#32 ≠ 0x00000001#32) ∧
      (0xFFFFFFFF#32 ≠ 0x00000000#32 ∧ 0xFFFFFFFF#32 ≠ 0x00000001#32) := by decide

theorem witness_DecodeAndEncodeAgree : decode 0x00000000#32 = .ok .nop ∧ decode 0x00000001#32 = .ok .start := by decide

theorem witness_FactorFieldsRoundTrip :
    (128 : Byte).toNat ≤ 128 ∧ (0 : Byte).toNat ≤ 128 ∧ (64 : Byte).toNat ≤ 128 := by decide

/-- NOP, which completes its write, and START, which leaves the host waiting. -/
theorem witness_StepRunsDecodedCommand :
    (NextOp (withOp il4 (.write (regAddr il4.params .cmd) .word 0)) (.write (regAddr il4.params .cmd) .word 0) [] ∧
        decode 0 = .ok .nop ∧
        goesOn (exec .nop (taken (withOp il4 (.write (regAddr il4.params .cmd) .word 0)) [])) (fun t => !t.host.wait) =
          true) ∧
      (NextOp (withOp il4 (.write (regAddr il4.params .cmd) .word 1)) (.write (regAddr il4.params .cmd) .word 1) [] ∧
        decode 1 = .ok .start ∧
        goesOn (exec .start (taken (withOp il4 (.write (regAddr il4.params .cmd) .word 1)) [])) (fun t => t.host.wait) =
          true) :=
  ⟨⟨nextOp_interleaved _, by decide, by decide⟩, nextOp_interleaved _, by decide, by decide⟩

theorem witness_IllegalWordRaisesIllegalCmd :
    NextOp (withOp il4 (.write (regAddr il4.params .cmd) .word 2)) (.write (regAddr il4.params .cmd) .word 2) [] ∧
      (2 : Word) ≠ 0x00000000#32 ∧ (2 : Word) ≠ 0x00000001#32 :=
  ⟨nextOp_interleaved _, by decide, by decide⟩

/-- A product off by three bytes, and one that is 0 modulo 2^32. -/
theorem witness_StartShapeMismatch :
    ((withCsr il4 ⟨0, 0, 12, 3, 1, 0⟩).csr.bufLen.toNat ≠ 3 * (3 * 1)) ∧
      (withCsr il4 ⟨0, 0, 0, 0x10000, 0x10000, 0⟩).csr.bufLen.toNat ≠
        3 * ((withCsr il4 ⟨0, 0, 0, 0x10000, 0x10000, 0⟩).csr.width.toNat *
          (withCsr il4 ⟨0, 0, 0, 0x10000, 0x10000, 0⟩).csr.height.toNat) := by decide

/-- One byte past the top, and exactly at the top. -/
theorem witness_StartAddrRange :
    let past := (withCsr il4 ⟨0, 0xFFFFFFF8, 9, 3, 1, 0⟩).csr
    let fits := (withCsr il4 ⟨0, 0xFFFFFFF7, 9, 3, 1, 0⟩).csr
    (past.bufLen.toNat = 3 * (past.width.toNat * past.height.toNat) ∧ 2 ^ 32 < past.imgBase.toNat + past.bufLen.toNat) ∧
      (fits.bufLen.toNat = 3 * (fits.width.toNat * fits.height.toNat) ∧
        fits.imgBase.toNat + fits.bufLen.toNat ≤ 2 ^ 32) ∧
      goesOn (exec .start (withCsr il4 ⟨0, 0xFFFFFFF7, 9, 3, 1, 0⟩)) (fun _ => true) = true := by decide

theorem witness_StartEntersRun :
    (Startable pl4 ∧ pl4.params.strategy = .planar) ∧ Startable il4 ∧ il4.params.strategy = .interleaved :=
  ⟨⟨startable_pl4, rfl⟩, startable_il4, rfl⟩

theorem witness_CommandFrame : exec .nop il4 = .next il4 ∧ exec .start il4 = .next (running il4) := ⟨rfl, rfl⟩

/-- Buffers whose last byte is the window's first, and whose first byte is the window's last. -/
theorem witness_BufferOverlappingWindowRefused :
    let low := withCsr il4 ⟨0, 0x3FFFFFFE, 3, 1, 1, 0⟩
    let high := withCsr il4 ⟨0, 0x4000001F, 3, 1, 1, 0⟩
    (bufferLen low = 3 * pixelProduct low ∧ imageBase low + bufferLen low ≤ 2 ^ 32 ∧
      imageBase low ≤ 0x40000000 ∧ 0x40000000 < imageBase low + bufferLen low ∧
      low.params.csrBase.toNat ≤ 0x40000000 ∧ 0x40000000 < low.params.csrBase.toNat + 32) ∧
    (bufferLen high = 3 * pixelProduct high ∧ imageBase high + bufferLen high ≤ 2 ^ 32 ∧
      imageBase high ≤ 0x4000001F ∧ 0x4000001F < imageBase high + bufferLen high ∧
      high.params.csrBase.toNat ≤ 0x4000001F ∧ 0x4000001F < high.params.csrBase.toNat + 32) := by decide

/-- A build whose bytes 0x1008 to 0x100F are a device. -/
def onDevice : State := scenario { build .interleaved 4 with deviceMem := [⟨0x1008, 8⟩] }

theorem witness_BufferOnDeviceRefused :
    bufferLen onDevice = 3 * pixelProduct onDevice ∧ imageBase onDevice + bufferLen onDevice ≤ 2 ^ 32 ∧
      (∀ a, imageBase onDevice ≤ a → a < imageBase onDevice + bufferLen onDevice →
        ¬(onDevice.params.csrBase.toNat ≤ a ∧ a < onDevice.params.csrBase.toNat + 32)) ∧
      ∃ d ∈ onDevice.params.deviceMem, ∃ a, imageBase onDevice ≤ a ∧ a < imageBase onDevice + bufferLen onDevice ∧
        d.base ≤ a ∧ a < d.base + d.len := by
  have hb : imageBase onDevice = 0x1000 := rfl
  have hl : bufferLen onDevice = 9 := rfl
  have hc : onDevice.params.csrBase.toNat = 0x40000000 := rfl
  rw [hb, hl, hc]
  exact ⟨by decide, by decide, by omega, ⟨0x1008, 8⟩, by decide, 0x1008, by decide⟩

/-- A platform that is not coherent, with a device at the byte after the buffer, the host owing a clean of these spans. -/
def owing (l : List Span) : State :=
  let s := scenario { build .interleaved 4 with coherent := false, deviceMem := [⟨0x1009, 1⟩] }
  { s with host := { s.host with unclean := l } }

/-- The last byte of the buffer is owed, and only the byte after it is owed. -/
theorem witness_UncleanedBufferRefused :
    (∀ l, bufferLen (owing l) = 3 * pixelProduct (owing l) ∧ imageBase (owing l) + bufferLen (owing l) ≤ 2 ^ 32 ∧
      (owing l).params.coherent = false ∧
      ∀ a, imageBase (owing l) ≤ a → a < imageBase (owing l) + bufferLen (owing l) →
        ¬((owing l).params.csrBase.toNat ≤ a ∧ a < (owing l).params.csrBase.toNat + 32) ∧
          ∀ d ∈ (owing l).params.deviceMem, ¬(d.base ≤ a ∧ a < d.base + d.len)) ∧
      refusalOf (exec .start (owing [⟨0x1008, 1⟩])) = some .bufferNotCleaned ∧
      refusalOf (exec .start (owing [⟨0x1009, 1⟩])) = none := by
  refine ⟨fun l => ?_, by decide, by decide⟩
  have hb : imageBase (owing l) = 0x1000 := rfl
  have hl : bufferLen (owing l) = 9 := rfl
  have hc : (owing l).params.csrBase.toNat = 0x40000000 := rfl
  have hp : pixelProduct (owing l) = 3 := rfl
  have hd : (owing l).params.deviceMem = [⟨0x1009, 1⟩] := rfl
  rw [hb, hl, hc, hp, hd]
  refine ⟨rfl, by decide, rfl, fun a h1 h2 => ⟨by omega, fun d hm => ?_⟩⟩
  obtain rfl : d = ⟨0x1009, 1⟩ := by simpa using hm
  simp only
  omega

theorem witness_RegisterAddressReachesRegister :
    legalBuild (build .planar 1) = true ∧ legalBuild { Params.reference with csrBase := 0xFFFFFFE0#32 } = true := by decide

/-- One register for each clause. -/
theorem witness_PlainRegisterWrites :
    ∀ r ∈ [RegName.imgBase, .bufLen, .width, .height],
      NextOp (withOp il4 (.write (regAddr il4.params r) .word 0xFFFFFFFF))
        (.write (regAddr il4.params r) .word 0xFFFFFFFF) [] :=
  fun _ _ => nextOp_interleaved _

theorem witness_FactorWriteClamps :
    NextOp (withOp pl4 (.write (regAddr pl4.params .factor) .word 0x00FF8180))
      (.write (regAddr pl4.params .factor) .word 0x00FF8180) [] :=
  nextOp_planar _

theorem witness_ReadOnlyWritesIgnored :
    (NextOp (withOp il4 (.write (regAddr il4.params .cap) .word 0)) (.write (regAddr il4.params .cap) .word 0) [] ∧
        (RegName.cap = .cap ∨ RegName.cap = .status)) ∧
      NextOp (withOp il4 (.write (regAddr il4.params .status) .word 0)) (.write (regAddr il4.params .status) .word 0) [] ∧
        (RegName.status = .cap ∨ RegName.status = .status) :=
  ⟨⟨nextOp_interleaved _, .inl rfl⟩, nextOp_interleaved _, .inr rfl⟩

/-- One register for each clause, and CAP on both strategies. -/
theorem witness_RegisterReads :
    (∀ r ∈ [RegName.cap, .cmd, .status, .imgBase, .bufLen, .width, .height, .factor],
      NextOp (withOp il4 (.read (regAddr il4.params r) .word)) (.read (regAddr il4.params r) .word) []) ∧
      NextOp (withOp pl4 (.read (regAddr pl4.params .cap) .word)) (.read (regAddr pl4.params .cap) .word) [] :=
  ⟨fun _ _ => nextOp_interleaved _, nextOp_planar _⟩

/-- A halfword that ends on the window's first byte, a byte write of its last, and a word off alignment at its end. -/
theorem witness_MalformedWindowAccessGetsBusError :
    (∀ op, NextOp (withOp il4 op) op []) ∧
      ([(0x3FFFFFFF, .half), (0x4000001F, .byte), (0x4000001E, .word)] : List (Word × AccessSize)).all (fun c =>
        decide (c.1.toNat < il4.params.csrBase.toNat + 32) && decide (il4.params.csrBase.toNat < c.1.toNat + c.2.bytes) &&
          (decide (c.2 ≠ .word) || decide (c.1.toNat % 4 ≠ 0))) = true :=
  ⟨nextOp_interleaved, by decide⟩

theorem nextOp_owing (l : List Span) (op : HostOp) : NextOp (withOp (owing l) op) op [] :=
  ⟨(by decide : legalBuild (owing []).params = true), rfl, rfl, rfl, (by decide : (owing []).inputs.head? ≠ some .reset)⟩

/-- The bytes on both sides of the window and of a device, on a platform that is coherent and on one that is not. -/
theorem witness_HostByteWriteChangesOneByte :
    (∀ op, NextOp (withOp il4 op) op [] ∧ (withOp il4 op).mem.wf = true ∧ (withOp il4 op).params.coherent = true) ∧
      (∀ op, NextOp (withOp (owing []) op) op [] ∧ (withOp (owing []) op).mem.wf = true ∧
        spanMeetsAny ⟨0x1008, 1⟩ (withOp (owing []) op).host.stale = false) ∧
      ([0x1008, 0x100A, 0x3FFFFFFF, 0x40000020] : List Word).all (fun a =>
        !(decide ((owing []).params.csrBase.toNat ≤ a.toNat) && decide (a.toNat < (owing []).params.csrBase.toNat + 32)) &&
          (owing []).params.deviceMem.all (fun d => !(decide (d.base ≤ a.toNat) && decide (a.toNat < d.base + d.len)))) =
        true :=
  ⟨fun op => ⟨nextOp_interleaved op, (by decide : il4.mem.wf = true), rfl⟩,
    fun op => ⟨nextOp_owing [] op, (by decide : (owing []).mem.wf = true), (by decide : spanMeetsAny ⟨0x1008, 1⟩ [] = false)⟩,
    by decide⟩

/-- A clean, an invalidate beside an owed byte, one over it on a coherent platform, and one over it that is refused. -/
theorem witness_MaintenanceClearsItsRange :
    NextOp (withOp (owing [⟨0x1000, 4⟩]) (.clean ⟨0x1003, 1⟩)) (.clean ⟨0x1003, 1⟩) [] ∧
      (NextOp (withOp (owing [⟨0x1000, 4⟩]) (.invalidate ⟨0x1004, 4⟩)) (.invalidate ⟨0x1004, 4⟩) [] ∧
        ∀ a, 0x1004 ≤ a → a < 0x1004 + 4 → spanMeetsAny ⟨a, 1⟩ (owing [⟨0x1000, 4⟩]).host.unclean = false) ∧
      (NextOp (withOp il4 (.invalidate ⟨0x1003, 1⟩)) (.invalidate ⟨0x1003, 1⟩) [] ∧ il4.params.coherent = true) ∧
      NextOp (withOp (owing [⟨0x1000, 4⟩]) (.invalidate ⟨0x1003, 4⟩)) (.invalidate ⟨0x1003, 4⟩) [] ∧
        (owing [⟨0x1000, 4⟩]).params.coherent = false ∧
        (0x1003 ≤ 0x1003 ∧ 0x1003 < 0x1003 + 4 ∧ spanMeetsAny ⟨0x1003, 1⟩ (owing [⟨0x1000, 4⟩]).host.unclean = true) := by
  refine ⟨nextOp_owing _ _, ⟨nextOp_owing _ _, fun a h1 h2 => ?_⟩, ⟨nextOp_interleaved _, rfl⟩, nextOp_owing _ _, rfl,
    by decide⟩
  obtain rfl | rfl | rfl | rfl : a = 0x1004 ∨ a = 0x1005 ∨ a = 0x1006 ∨ a = 0x1007 := by omega
  all_goals decide

/-- After a START on a platform that is not coherent and the end of its run, the host reads the last byte of the buffer. -/
theorem witness_RunLeavesBufferStale :
    let u := withOp (((running (owing [])).setSeqState .idle).setWait false) (.read 0x1008 .byte)
    Startable (owing []) ∧ (owing []).params.coherent = false ∧ exec .start (owing []) = .next (running (owing [])) ∧
      imageBase (owing []) ≤ (0x1008 : Word).toNat ∧ (0x1008 : Word).toNat < imageBase (owing []) + bufferLen (owing []) ∧
      u.params = (owing []).params ∧ u.host.stale = (running (owing [])).host.stale ∧ NextOp u (.read 0x1008 .byte) [] :=
  ⟨⟨by decide, by decide, by decide, by decide⟩, rfl, rfl, by decide, by decide, rfl, rfl,
    ⟨by decide, rfl, rfl, rfl, by decide⟩⟩

/-- A product of exactly 16384, where the second doubling saturates first, and one below. -/
theorem witness_OnlySecondDoublingSaturates :
    (128 : Byte).toNat ≤ 128 ∧ (16384 ≤ (128 : Byte).toNat * (128 : Byte).toNat) ∧
      (82 : Byte).toNat ≤ 128 ∧ ¬16384 ≤ (199 : Byte).toNat * (82 : Byte).toNat := by decide

theorem witness_GainLaws : (254 : Byte).toNat ≤ (255 : Byte).toNat ∧ (127 : Byte).toNat ≤ (128 : Byte).toNat := by decide

theorem witness_InterleaveInvertsDeinterleave :
    ([10, 20, 30, 100, 150, 200] : List Byte).length = 3 * 2 ∧ 2 ≤ 2 ∧ 2 ≤ 4 := by decide

/-- A store that ends at the top of memory, with one lane inactive. -/
theorem witness_MaskedStoreWritesActiveLanesOnly :
    scenarioMem.wf = true ∧ 3 ≤ ([20, 20, 15, 77] : List Byte).length ∧ 0xFFFFFFFD + 3 ≤ 2 ^ 32 := by decide

theorem witness_FactorTableIsAligned :
    3 ∣ 6 ∧ (2 < 4 ∧ 2 < alignedStride 4) ∧ 3 < 4 ∧ alignedStride 4 ≤ 3 := by decide

/-- The first and only batch, three of four lanes active. -/
theorem witness_PlanarBatchStep :
    Running (atPos (running pl4) 0) ∧ (atPos (running pl4) 0).mem.wf = true ∧
      (atPos (running pl4) 0).params.strategy = .planar ∧ (atPos (running pl4) 0).seq.pos <
        bufferLen (atPos (running pl4) 0) / 3 ∧ 0 < min (atPos (running pl4) 0).params.lanes 3 :=
  ⟨running_pl4 0, by decide, rfl, by decide, by decide⟩

/-- The first iteration, all lanes active, and the last. -/
theorem witness_InterleavedBatchStep :
    ∀ n ∈ [0, 6], Running (atPos (running il4) n) ∧ (atPos (running il4) n).mem.wf = true ∧
      (atPos (running il4) n).params.strategy = .interleaved ∧
      (atPos (running il4) n).seq.pos < bufferLen (atPos (running il4) n) ∧
      (atPos (running il4) n).data.ft =
        factorTable (atPos (running il4) n).params.lanes (atPos (running il4) n).csr.factor ∧
      3 ∣ (atPos (running il4) n).seq.pos := by
  intro n hn
  refine ⟨running_il4 n, (by decide : il4.mem.wf = true), rfl, ?_, rfl, ?_⟩ <;> fin_cases hn <;> decide

theorem witness_BatchReadsBeforeItWrites :
    (Running (atPos (running pl4) 0) ∧ (atPos (running pl4) 0).seq.pos < runEnd (atPos (running pl4) 0) ∧
        (atPos (running pl4) 0).data.ft.length = (atPos (running pl4) 0).params.lanes) ∧
      Running (atPos (running il4) 6) ∧ (atPos (running il4) 6).seq.pos < runEnd (atPos (running il4) 6) ∧
        (atPos (running il4) 6).data.ft.length = (atPos (running il4) 6).params.lanes :=
  ⟨⟨running_pl4 0, by decide, by decide⟩, running_il4 6, by decide, by decide⟩

theorem witness_WriteOrderWithinBatchIsFree :
    let ws : List Host.Cell := [(0xFFFFFFFE, 1), (0xFFFFFFFF, 2)]
    scenarioMem.wf = true ∧ ws.Perm [(0xFFFFFFFF, 2), (0xFFFFFFFE, 1)] ∧ (ws.map Prod.fst).Nodup ∧
      ∀ c ∈ ws, c.1 < 2 ^ 32 := by decide

theorem witness_LoopEndCompletesStart :
    (Running (atPos (running pl4) 4) ∧ runEnd (atPos (running pl4) 4) ≤ (atPos (running pl4) 4).seq.pos ∧
        (atPos (running pl4) 4).csr.status = 0x00000000#32) ∧
      Running (atPos (running il4) 9) ∧ runEnd (atPos (running il4) 9) ≤ (atPos (running il4) 9).seq.pos ∧
        (atPos (running il4) 9).csr.status = 0x00000000#32 :=
  ⟨⟨running_pl4 4, by decide, rfl⟩, running_il4 9, by decide, rfl⟩

/-- A step that stays in the run, and one that ends it. -/
theorem witness_HostIsBlockedDuringRun :
    ((running il4).seq.state = .run ∧ goesOn (step (running il4)) (fun t => t.seq.state = .run) = true) ∧
      (atPos (running il4) 9).seq.state = .run ∧
        goesOn (step (atPos (running il4) 9)) (fun t => t.seq.state = .idle) = true := by decide +kernel

/-- `s` with one input from the platform. -/
def withInput (s : State) (i : Input) : State := { s with inputs := [i] }

theorem witness_MemErrorStopsRun :
    let s := withInput (atPos (running il4) 3) .memError
    legalBuild s.params = true ∧ s.seq.state = .run ∧ imageBase s + bufferLen s ≤ 2 ^ 32 ∧ s.mem.wf = true ∧
      s.seq.pos < runEnd s ∧ s.inputs.head? = some .memError ∧ 8 < bufferLen s ∧ 0xFFF < imageBase s ∧
      imageBase s + bufferLen s ≤ 0x1009 := by decide

theorem witness_ResetInputOutsideRun :
    let s := withInput il4 .reset
    legalBuild s.params = true ∧ s.seq.state = .idle ∧ s.inputs.head? = some .reset := by decide

theorem witness_ResetDuringRun :
    let s := withInput (atPos (running pl4) 4) .reset
    legalBuild s.params = true ∧ s.seq.state = .run ∧ imageBase s + bufferLen s ≤ 2 ^ 32 ∧ s.mem.wf = true ∧
      s.inputs.head? = some .reset ∧ 8 < bufferLen s ∧ 0xFFF < imageBase s ∧ imageBase s + bufferLen s ≤ 0x1009 := by
  decide

theorem witness_PlanarStartRunsToAdjustMap :
    Startable pl2 ∧ pl2.params.strategy = .planar ∧ pl2.mem.wf = true ∧ pl2.inputs = [] :=
  ⟨startable_pl2, rfl, by decide, rfl⟩

theorem witness_InterleavedStartRunsToAdjustMap :
    Startable il4 ∧ il4.params.strategy = .interleaved ∧ il4.mem.wf = true ∧ il4.inputs = [] :=
  ⟨startable_il4, rfl, by decide, rfl⟩

/-- Builds of both strategies and of two lane counts. -/
theorem witness_BuildsAreEquivalent :
    Startable il4 ∧ Startable pl2 ∧ il4.csr = pl2.csr ∧ il4.mem = pl2.mem ∧ il4.mem.wf = true ∧ il4.inputs = [] ∧
      pl2.inputs = [] ∧ 8 < bufferLen il4 ∧ 0xFFF < imageBase il4 ∧ imageBase il4 + bufferLen il4 ≤ 0x1009 :=
  ⟨startable_il4, startable_pl2, rfl, rfl, by decide, rfl, rfl, by decide, by decide, by decide⟩

theorem witness_IdentityFactorsLeaveMemory :
    let s := withCsr il4 { scenarioCsr with factor := 0x00404040 }
    Startable s ∧ s.csr.factor = 0x00404040#32 ∧ s.mem.wf = true ∧ s.inputs = [] :=
  ⟨⟨by decide, by decide, by decide, by decide⟩, rfl, by decide, rfl⟩

/-- Reset itself (V-C-11), a planar build, and an image of width 5 and height 0. -/
theorem witness_EmptyImageCompletes :
    ∀ s ∈ [State.reset, State.resetOf (build .planar 2), withCsr il4 ⟨0x12, 0x1000, 0, 5, 0, 0⟩],
      legalBuild s.params = true ∧ s.csr.bufLen.toNat = 0 ∧ 3 * (s.csr.width.toNat * s.csr.height.toNat) = 0 ∧
        s.inputs = [] := by decide

theorem witness_PlanarAccessesEachByteOnce : Startable pl2 ∧ pl2.params.strategy = .planar ∧ pl2.inputs = [] :=
  ⟨startable_pl2, rfl, rfl⟩

/-- Byte 3 is accessed twice and byte 8 once (V-IL-4). -/
theorem witness_InterleavedAccessesEachByteOnceOrTwice :
    Startable il4 ∧ il4.params.strategy = .interleaved ∧ il4.inputs = [] ∧ 8 < bufferLen il4 ∧
      (1 ≤ 3 / alignedStride 4 ∧ 3 % alignedStride 4 < 4 - alignedStride 4) ∧
      ¬(1 ≤ 8 / alignedStride 4 ∧ 8 % alignedStride 4 < 4 - alignedStride 4) ∧
      0xFFF < imageBase il4 ∧ imageBase il4 + bufferLen il4 ≤ 0x1009 :=
  ⟨startable_il4, rfl, rfl, by decide, by decide, by decide, by decide, by decide⟩

/-- One factor for each clause, at the ends of the ranges. -/
theorem witness_EncodeClampsAndRounds :
    (-1 / 64 : Rat) < 0 ∧ (2 : Rat) < 129 / 64 ∧ ((0 : Rat) ≤ 0 ∧ (0 : Rat) ≤ 2) ∧ (0 : Rat) ≤ 2 ∧ (2 : Rat) ≤ 2 := by
  norm_num

/-- A product whose fraction is one half, and one whose product saturates. -/
theorem witness_OracleWithinOneAtRepresentableFactors :
    (32 : Byte).toNat ≤ 128 ∧ (128 : Byte).toNat ≤ 128 ∧
      (32 ≤ (255 : Byte).toNat * (32 : Byte).toNat % 64 ∧ (255 : Byte).toNat * (32 : Byte).toNat < 255 * 64) ∧
      ¬(255 : Byte).toNat * (128 : Byte).toNat < 255 * 64 := by decide

theorem witness_OracleBoundAtAnyFactor : ((0 : Rat) ≤ 0 ∧ (0 : Rat) ≤ 2) ∧ (0 : Rat) ≤ 23 / 1024 ∧ (23 / 1024 : Rat) ≤ 2 := by
  norm_num

theorem witness_ResetMeetsInvariant :
    legalBuild (build .planar 1) = true ∧ legalBuild (build .planar 65535) = true ∧
      legalBuild (build .interleaved 3) = true := by decide

/-- A run in progress meets the invariant, and its steps go on. -/
theorem running_inv : Inv (running il4) where
  build := by decide
  status := ⟨by decide, fun _ => rfl⟩
  factor := ⟨by decide, by decide⟩
  wait := ⟨fun _ => rfl, fun _ => rfl⟩
  vectors := ⟨by decide, by decide, by decide, by decide, by decide, by decide⟩
  memory := ⟨by decide, by decide⟩
  run := fun _ => {
    shape := by decide
    range := by decide
    aligned := by decide
    table := fun _ => rfl
    image := fun a => by
      have h : doneBytes (running il4) = 0 := by decide
      rw [h, adjustMap, if_neg (by omega)]
      rfl }

theorem witness_StepKeepsParameters : step il4 = .next il4 ∧ goesOn (step (running il4)) (fun _ => true) = true :=
  ⟨rfl, by decide +kernel⟩

theorem witness_StepKeepsStatusLegal :
    StatusInv (running il4) ∧ goesOn (step (running il4)) (fun _ => true) = true ∧
      goesOn (step (atPos (running il4) 9)) (fun _ => true) = true ∧ StatusInv (atPos (running il4) 9) :=
  ⟨running_inv.status, by decide +kernel, by decide +kernel, ⟨by decide, fun _ => rfl⟩⟩

theorem witness_StepKeepsFactorLegal :
    FactorInv (running il4) ∧ goesOn (step (running il4)) (fun _ => true) = true :=
  ⟨running_inv.factor, by decide +kernel⟩

theorem witness_StepKeepsHostWaiting :
    WaitInv (running il4) ∧ goesOn (step (running il4)) (fun _ => true) = true :=
  ⟨running_inv.wait, by decide +kernel⟩

theorem witness_StepKeepsMemoryCanonical :
    MemoryInv (running il4) ∧ goesOn (step (running il4)) (fun _ => true) = true :=
  ⟨running_inv.memory, by decide +kernel⟩

theorem witness_StepKeepsInvariant : Inv (running il4) ∧ goesOn (step (running il4)) (fun _ => true) = true :=
  ⟨running_inv, by decide +kernel⟩

theorem witness_InvariantStatesDoNotFault : Inv (running il4) := running_inv

/-- `s` with other lanes, draws and trace. -/
def disguised (s : State) : State :=
  { s with data := { s.data with vr := [1, 2, 3, 4], vi := [5, 6, 7, 8] }, draws := 99, trace := [.failed ⟨0, 0⟩] }

theorem witness_UnspecifiedValuesAreUnobservable :
    SameView (running il4) (disguised (running il4)) ∧ running il4 ≠ disguised (running il4) ∧
      (running il4).inputs = [] ∧ goesOn (step (running il4)) (fun _ => true) = true :=
  ⟨⟨rfl, rfl, rfl, rfl, rfl, rfl, rfl, fun _ => rfl, fun _ _ => rfl⟩, by decide, rfl, by decide +kernel⟩

end Sys2Proof.Tests
end

section
/-! SUPPORT. One step as a move of the platform, the Sequencer or the host, said once with its guards, and what each move
leaves in the fields the invariants speak of. -/

namespace Sys2Proof.Machine

open Sys2Proof.Safety

variable (s : State)

/-! ### The host's queue -/

/-- `s` with the host operations `q` still to issue. -/
def State.withQueue (q : List HostOp) : State := { s with host := { s.host with queue := q } }

@[simp] theorem State.withQueue_params (q : List HostOp) : (s.withQueue q).params = s.params := rfl
@[simp] theorem State.withQueue_csr (q : List HostOp) : (s.withQueue q).csr = s.csr := rfl
@[simp] theorem State.withQueue_seq (q : List HostOp) : (s.withQueue q).seq = s.seq := rfl
@[simp] theorem State.withQueue_mem (q : List HostOp) : (s.withQueue q).mem = s.mem := rfl
@[simp] theorem State.withQueue_startMem (q : List HostOp) : (s.withQueue q).startMem = s.startMem := rfl
@[simp] theorem State.withQueue_host (q : List HostOp) : (s.withQueue q).host = { s.host with queue := q } := rfl

/-! ### The fields after each move of the Sequencer and the platform -/

@[simp] theorem runBatch_params : (runBatch s).params = s.params := by
  unfold runBatch; split <;> rfl

@[simp] theorem runBatch_csr : (runBatch s).csr = s.csr := by
  unfold runBatch; split <;> rfl

@[simp] theorem runBatch_host : (runBatch s).host = s.host := by
  unfold runBatch; split <;> rfl

@[simp] theorem runBatch_seqState : (runBatch s).seq.state = s.seq.state := by
  unfold runBatch; split <;> rfl

@[simp] theorem runBatch_startMem : (runBatch s).startMem = s.startMem := by
  unfold runBatch; split <;> rfl

@[simp] theorem finishRun_params : (finishRun s).params = s.params := rfl
@[simp] theorem finishRun_csr : (finishRun s).csr = { s.csr with status := withDone s.csr.status } := rfl
@[simp] theorem finishRun_host :
    (finishRun s).host = { s.host with wait := false, responses := s.host.responses ++ [.done] } := rfl
@[simp] theorem finishRun_seqState : (finishRun s).seq.state = .idle := rfl
@[simp] theorem finishRun_mem : (finishRun s).mem = s.mem := rfl
@[simp] theorem finishRun_startMem : (finishRun s).startMem = s.startMem := rfl

@[simp] theorem memErrorStop_params : (memErrorStop s).params = s.params := rfl
@[simp] theorem memErrorStop_csr : (memErrorStop s).csr = { s.csr with status := errorStatus .memError } := rfl
@[simp] theorem memErrorStop_host :
    (memErrorStop s).host = { s.host with wait := false, responses := s.host.responses ++ [.done] } := rfl
@[simp] theorem memErrorStop_seqState : (memErrorStop s).seq.state = .idle := rfl
@[simp] theorem memErrorStop_mem : (memErrorStop s).mem = mixedMemory s := rfl
@[simp] theorem memErrorStop_startMem : (memErrorStop s).startMem = s.startMem := rfl

@[simp] theorem applyReset_params : (applyReset s).params = s.params := rfl
@[simp] theorem applyReset_csr : (applyReset s).csr = Csr.atReset := rfl
@[simp] theorem applyReset_seq : (applyReset s).seq = Seq.atReset := rfl
@[simp] theorem applyReset_wait : (applyReset s).host.wait = false := rfl
@[simp] theorem applyReset_queue : (applyReset s).host.queue = s.host.queue := rfl
@[simp] theorem applyReset_startMem : (applyReset s).startMem = s.startMem := rfl

@[simp] theorem beginRun_params : (beginRun s).params = s.params := rfl
@[simp] theorem beginRun_csr : (beginRun s).csr = s.csr := rfl
@[simp] theorem beginRun_seq : (beginRun s).seq = ⟨.run, 0⟩ := rfl
@[simp] theorem beginRun_wait : (beginRun s).host.wait = s.host.wait := rfl
@[simp] theorem beginRun_mem : (beginRun s).mem = s.mem := rfl
@[simp] theorem beginRun_startMem : (beginRun s).startMem = s.mem := rfl

variable {s}

/-! ### The cases of one step -/

/-- Everything a command the host issued can leave (R270 to R278): NOP's completion, an error's, or a run begun. -/
theorem commandIssued_cases {t : State} (h : CommandIssued s t) :
    (t = if s.host.wait then s else s.respond .done) ∨
    (∃ c, t = (raiseError c s).respond .done) ∨
    (bufferLen s = 3 * pixelProduct s ∧ imageBase s + bufferLen s ≤ 2 ^ 32 ∧ startRefusal s = none ∧
      t = beginRun ((s.setWait true).setStatus clearedStatus)) := by
  obtain ⟨u, ⟨i, hu⟩ | rfl, rfl⟩ := h
  · cases i with
    | nop =>
      obtain rfl : s = u := by simpa [exec, execNop] using hu
      exact .inl rfl
    | start =>
      rcases execStart_cases (s := s) hu with ⟨_, ho⟩ | ⟨_, _, ho⟩ | ⟨hs, hr, ⟨_, _, ho⟩ | ⟨hn, ho⟩⟩
      · cases ho; exact .inr (.inl ⟨.shapeMismatch, rfl⟩)
      · cases ho; exact .inr (.inl ⟨.addrRange, rfl⟩)
      · cases ho
      · cases ho; exact .inr (.inr ⟨hs, hr, hn, rfl⟩)
  · exact .inr (.inl ⟨.illegalCmd, rfl⟩)

/-- What one step makes of a state whose input is already taken off the schedule: the platform's reset, the Sequencer's
batch, stop or end of the run, or the host's idling, plain access or command. -/
inductive Move (s : State) : State → Prop
  | reset (range : s.seq.state = .run → imageBase s + bufferLen s ≤ 2 ^ 32) : Move s (applyReset s)
  | batch (run : s.seq.state = .run) (range : imageBase s + bufferLen s ≤ 2 ^ 32) (more : s.seq.pos < runEnd s) :
      Move s (runBatch s)
  | memError (run : s.seq.state = .run) (range : imageBase s + bufferLen s ≤ 2 ^ 32) (more : s.seq.pos < runEnd s) :
      Move s (memErrorStop s)
  | finish (run : s.seq.state = .run) (ended : runEnd s ≤ s.seq.pos) : Move s (finishRun s)
  | stay (idle : s.seq.state = .idle) : Move s s
  | access {op : HostOp} {rest : List HostOp} {t : State} (idle : s.seq.state = .idle)
      (queue : s.host.queue = op :: rest) (plain : PlainAccess (s.withQueue rest) t) : Move s t
  | skip {op : HostOp} {rest : List HostOp} (idle : s.seq.state = .idle) (queue : s.host.queue = op :: rest) :
      Move s ((s.withQueue rest).respond .done)
  | error {op : HostOp} {rest : List HostOp} (idle : s.seq.state = .idle) (queue : s.host.queue = op :: rest)
      (c : ErrCode) : Move s ((raiseError c (s.withQueue rest)).respond .done)
  | start {op : HostOp} {rest : List HostOp} (idle : s.seq.state = .idle) (queue : s.host.queue = op :: rest)
      (shape : bufferLen s = 3 * pixelProduct s) (range : imageBase s + bufferLen s ≤ 2 ^ 32)
      (buffer : startRefusal s = none) :
      Move s (beginRun (((s.withQueue rest).setWait true).setStatus clearedStatus))

/-- A run's buffer is in memory where the step does not fault (log 18). -/
theorem runInMemory_range (h : runInMemory s = true) (hr : s.seq.state = .run) :
    imageBase s + bufferLen s ≤ 2 ^ 32 := by
  simpa [runInMemory, hr] using h

theorem sequencerStep_move (m : Bool) (run : s.seq.state = .run) (range : imageBase s + bufferLen s ≤ 2 ^ 32) :
    Move s (sequencerStep m s) := by
  unfold sequencerStep
  split
  · next more =>
    cases m with
    | false => exact .batch run range more
    | true => exact .memError run range more
  · next ended => exact .finish run (Nat.le_of_not_lt ended)

theorem hostStep_move {t : State} (idle : s.seq.state = .idle) (h : hostStep s = .next t) : Move s t := by
  rcases hostStep_next h with rfl | ⟨op, rest, free, queue, plain | command⟩
  · exact .stay idle
  · exact .access idle queue plain
  · rcases commandIssued_cases command with rfl | ⟨c, rfl⟩ | ⟨shape, range, buffer, rfl⟩
    · rw [if_neg (by simp [free])]
      exact .skip idle queue
    · exact .error idle queue c
    · exact .start idle queue shape range buffer

/-- Every step that answers a next state is a move (R20, R283). -/
theorem step_move {t : State} (h : step s = .next t) : Move { s with inputs := s.inputs.tail } t := by
  obtain ⟨_, hm, ⟨_, rfl⟩ | ⟨_, run, rfl⟩ | ⟨_, idle, hh⟩⟩ := step_next h
  · exact .reset fun run => runInMemory_range hm run
  · exact sequencerStep_move _ run (runInMemory_range hm run)
  · exact hostStep_move idle hh

end Sys2Proof.Machine
end

section
/-! SUPPORT. What a register write leaves in each register, and what STATUS and FACTOR can hold. -/

namespace Sys2Proof.Machine

open Sys2Proof.Safety

/-! ### STATUS -/

/-- No register write reaches STATUS (R35, R42). -/
@[simp] theorem writeReg_status (r : RegName) (w : Word) (c : Csr) : (writeReg r w c).status = c.status := by
  cases r <;> rfl

/-- The STATUS word of each error is one of the six (R276, R311). -/
theorem legalStatus_errorStatus (c : ErrCode) : legalStatus (errorStatus c) = true := by
  cases c <;> decide

/-- No legal STATUS word has both DONE and ERR (R52). -/
theorem legalStatus_done_err {w : Word} (h : legalStatus w = true) : (statusDone w && statusErr w) = false := by
  simp only [legalStatus, decide_eq_true_eq, List.mem_cons, List.not_mem_nil, or_false] at h
  rcases h with rfl | rfl | rfl | rfl | rfl | rfl <;> decide

/-- Outside a run a legal word is all that STATUS owes. -/
theorem statusInv_of_idle {t : State} (legal : legalStatus t.csr.status = true) (idle : t.seq.state = .idle) :
    StatusInv t :=
  ⟨legal, fun run => by simp [idle] at run⟩

/-- A state with the same STATUS and the same Sequencer state. -/
theorem statusInv_congr {s t : State} (status : t.csr.status = s.csr.status) (state : t.seq.state = s.seq.state)
    (h : StatusInv s) : StatusInv t := by
  rwa [StatusInv, status, state]

/-! ### FACTOR -/

theorem factorField_factorWord (fr fg fb : Byte) :
    factorField (factorWord fr fg fb) 0 = fr ∧ factorField (factorWord fr fg fb) 1 = fg ∧
      factorField (factorWord fr fg fb) 2 = fb ∧ factorField (factorWord fr fg fb) 3 = 0 := by
  have hr := fr.isLt
  have hg := fg.isLt
  have hb := fb.isLt
  have field (c : Nat) (b : Byte) (h : (fr.toNat + 256 * fg.toNat + 65536 * fb.toNat) / 2 ^ (8 * c) % 256 = b.toNat) :
      factorField (factorWord fr fg fb) c = b :=
    BitVec.eq_of_toNat_eq (by rw [factorField_toNat, factorWord_toNat, h])
  exact ⟨field 0 fr (by omega), field 1 fg (by omega), field 2 fb (by omega), field 3 0 (by simp; omega)⟩

/-- The fields of what FACTOR stores are those written, clamped, under a reserved byte of zeros (R40). -/
theorem factorField_storedFactor (w : Word) :
    (∀ c, c < 3 → (factorField (storedFactor w) c).toNat = min (factorField w c).toNat 128) ∧
      factorField (storedFactor w) 3 = 0 := by
  obtain ⟨h0, h1, h2, h3⟩ :=
    factorField_factorWord (clampFactor (factorField w 0)) (clampFactor (factorField w 1)) (clampFactor (factorField w 2))
  refine ⟨fun c hc => ?_, h3⟩
  have : c = 0 ∨ c = 1 ∨ c = 2 := by omega
  rcases this with rfl | rfl | rfl
  · rw [storedFactor, h0, clampFactor_toNat]
  · rw [storedFactor, h1, clampFactor_toNat]
  · rw [storedFactor, h2, clampFactor_toNat]

/-- A register write leaves FACTOR as it was, or stores a clamped word there (R36 to R42). -/
theorem writeReg_factor (r : RegName) (w : Word) (c : Csr) :
    (writeReg r w c).factor = c.factor ∨ (writeReg r w c).factor = storedFactor w := by
  cases r with
  | factor => exact .inr rfl
  | _ => exact .inl rfl

theorem factorInv_congr {s t : State} (factor : t.csr.factor = s.csr.factor) (h : FactorInv s) : FactorInv t := by
  simpa only [FactorInv, channelFactor, factor] using h

theorem factorInv_of_stored {t : State} {w : Word} (factor : t.csr.factor = storedFactor w) : FactorInv t := by
  obtain ⟨hfields, hreserved⟩ := factorField_storedFactor w
  refine ⟨fun c hc => ?_, factor ▸ hreserved⟩
  rw [channelFactor, factor, hfields c hc]
  exact Nat.min_le_right _ _

/-- The reset word of FACTOR is its own stored form (R341). -/
theorem storedFactor_atReset : storedFactor Csr.atReset.factor = Csr.atReset.factor := by decide

/-! ### Memory -/

/-- A batch keeps the canonical form of memory (R86). -/
theorem runBatch_wf {s : State} (h : s.mem.wf = true) (range : imageBase s + bufferLen s ≤ 2 ^ 32)
    (more : s.seq.pos < runEnd s) : (runBatch s).mem.wf = true := by
  unfold runEnd at more
  unfold runBatch
  cases hs : s.params.strategy with
  | planar => exact planarBatch_wf h range (by simpa [hs] using more)
  | interleaved => exact interleavedBatch_wf h range (by simpa [hs] using more)

/-- A reset keeps the canonical form of memory, in a run and outside one (R340, R342). -/
theorem applyReset_wf {s : State} (h : s.mem.wf = true)
    (range : s.seq.state = .run → imageBase s + bufferLen s ≤ 2 ^ 32) : (applyReset s).mem.wf = true := by
  unfold applyReset
  cases hs : s.seq.state with
  | idle => exact h
  | run => exact (mixedMemory_spec h (range hs)).1

end Sys2Proof.Machine
end

section
/-! PROOFS. What every step keeps: the parameters, STATUS, FACTOR, the host's wait, and the form of memory. -/

namespace Sys2Proof.Machine

open Sys2Proof.Safety

variable {s t : State}

theorem Move.params_eq (h : Move s t) : t.params = s.params := by
  cases h with
  | access _ _ plain => exact plain.params
  | _ => simp

/-- Settles O53: no move writes the parameters. -/
theorem stepKeepsParameters : Obligations.StepKeepsParameters :=
  fun _ _ h => (step_move h).params_eq

/-- The moves that leave a run running keep STATUS, START clears it, and every other move ends IDLE with a legal word. -/
theorem Move.keeps_statusInv (h : Move s t) (hi : StatusInv s) : StatusInv t := by
  obtain ⟨legal, clear⟩ := hi
  cases h with
  | reset => exact statusInv_of_idle (by simp [Csr.atReset, legalStatus]) rfl
  | batch => exact statusInv_congr (by simp) (by simp) ⟨legal, clear⟩
  | memError => exact statusInv_of_idle (legalStatus_errorStatus _) rfl
  | finish run =>
    have hdone : legalStatus (withDone clearedStatus) = true := by decide
    exact statusInv_of_idle (by simpa [clear run] using hdone) rfl
  | stay => exact ⟨legal, clear⟩
  | access _ _ plain =>
    obtain ⟨r, w, hcsr⟩ := plain.csr
    exact statusInv_congr (by simp [hcsr]) (by simp [plain.seq]) ⟨legal, clear⟩
  | skip => exact ⟨legal, clear⟩
  | error _ _ c => exact statusInv_of_idle (legalStatus_errorStatus c) rfl
  | start => exact ⟨by simp [clearedStatus, legalStatus], fun _ => rfl⟩

/-- Settles O54, by the cases of a move. -/
theorem stepKeepsStatusLegal : Obligations.StepKeepsStatusLegal :=
  ⟨fun _ _ hi h => (step_move h).keeps_statusInv hi, fun _ hi => legalStatus_done_err hi.1⟩

/-- FACTOR changes only by a reset and by a register write, and both store a clamped word. -/
theorem Move.keeps_factorInv (h : Move s t) (hi : FactorInv s) : FactorInv t := by
  cases h with
  | reset => exact factorInv_of_stored storedFactor_atReset.symm
  | batch => exact factorInv_congr (by simp) hi
  | access _ _ plain =>
    obtain ⟨r, w, hcsr⟩ := plain.csr
    rcases writeReg_factor r w s.csr with hkept | hstored
    · exact factorInv_congr (by rw [hcsr]; exact hkept) hi
    · exact factorInv_of_stored (by rw [hcsr]; exact hstored)
  | _ => exact hi

/-- Settles O55, by the cases of a move. -/
theorem stepKeepsFactorLegal : Obligations.StepKeepsFactorLegal :=
  fun _ _ hi h => (step_move h).keeps_factorInv hi

/-- START sets both the wait and RUN, what ends a run or raises an error clears both, and no other move touches either. -/
theorem Move.keeps_waitInv (h : Move s t) (hi : WaitInv s) : WaitInv t := by
  cases h with
  | reset | memError | finish | error => simp [WaitInv, Seq.atReset]
  | start => simp [WaitInv]
  | access _ _ plain => simpa [WaitInv, plain.wait, plain.seq] using hi
  | batch | skip => simpa [WaitInv] using hi
  | stay => exact hi

/-- Settles O56, by the cases of a move. -/
theorem stepKeepsHostWaiting : Obligations.StepKeepsHostWaiting :=
  fun _ _ hi h => (step_move h).keeps_waitInv hi

/-- Every byte a move writes lies in the buffer of a run in memory or at a 32-bit host address. -/
theorem Move.keeps_memoryInv (h : Move s t) (hi : MemoryInv s) : MemoryInv t := by
  obtain ⟨hmem, hstart⟩ := hi
  cases h with
  | reset range => exact ⟨applyReset_wf hmem range, hstart⟩
  | batch _ range more => exact ⟨runBatch_wf hmem range more, by simpa using hstart⟩
  | memError _ range => exact ⟨(mixedMemory_spec hmem range).1, hstart⟩
  | access _ _ plain =>
    refine ⟨?_, by simpa [plain.startMem] using hstart⟩
    rcases plain.mem with hkept | ⟨a, v, hwritten⟩
    · simpa [hkept] using hmem
    · rw [hwritten]
      exact Memory.write_wf hmem a.isLt
  | finish | stay | skip | error => exact ⟨hmem, hstart⟩
  | start => exact ⟨hmem, hmem⟩

/-- Settles O57, by the cases of a move. -/
theorem stepKeepsMemoryCanonical : Obligations.StepKeepsMemoryCanonical :=
  fun _ _ hi h => (step_move h).keeps_memoryInv hi

/-- In a run only the platform and the Sequencer move: the queue stays, and while the run goes on so does all of the host. -/
theorem Move.host_of_run (h : Move s t) (run : s.seq.state = .run) :
    t.host.queue = s.host.queue ∧ (t.seq.state = .run → t.host = s.host) := by
  cases h with
  | reset | memError | finish => simp [Seq.atReset]
  | batch => simp
  | stay idle | access idle | skip idle | error idle | start idle => simp [idle] at run

/-- Settles O36, by the cases of a move. -/
theorem hostIsBlockedDuringRun : Obligations.HostIsBlockedDuringRun :=
  fun _ _ run h => (step_move h).host_of_run run

end Sys2Proof.Machine
end

section
/-! SUPPORT. Two states with the same view: what they agree on, and that every operation of the model keeps them so. -/

namespace Sys2Proof.Safety

open Sys2Proof.Machine

/-- Two outcomes a host cannot tell apart: the same stop, or next states with the same view. -/
inductive SameOutcome : Host.Outcome State Fault Refusal → Host.Outcome State Fault Refusal → Prop
  | next {s t : State} (h : SameView s t) : SameOutcome (.next s) (.next t)
  | fault (r : Fault) : SameOutcome (.fault r) (.fault r)
  | refused (r : Refusal) : SameOutcome (.refused r) (.refused r)

section

variable {s t : State} (h : SameView s t)

include h

/-! ### What the two agree on -/

theorem SameView.imageBase_eq : imageBase s = imageBase t := by simp only [imageBase, h.csr]

theorem SameView.bufferLen_eq : bufferLen s = bufferLen t := by simp only [bufferLen, h.csr]

theorem SameView.pixelProduct_eq : pixelProduct s = pixelProduct t := by simp only [pixelProduct, h.csr]

theorem SameView.pixelCount_eq : pixelCount s = pixelCount t := by simp only [pixelCount, h.bufferLen_eq]

theorem SameView.channelFactor_eq (c : Nat) : channelFactor s c = channelFactor t c := by
  simp only [channelFactor, h.csr]

theorem SameView.bufferSpan_eq : bufferSpan s = bufferSpan t := by
  simp only [bufferSpan, h.imageBase_eq, h.bufferLen_eq]

theorem SameView.runEnd_eq : runEnd s = runEnd t := by
  simp only [runEnd, h.params, h.pixelCount_eq, h.bufferLen_eq]

theorem SameView.startRefusal_eq : startRefusal s = startRefusal t := by
  simp only [startRefusal, h.bufferSpan_eq, h.params, h.host]

theorem SameView.readReg_eq (r : RegName) : readReg r s = readReg r t := by
  cases r <;> simp only [readReg, h.params, h.csr]

theorem SameView.runInMemory_eq : runInMemory s = runInMemory t := by
  simp only [runInMemory, h.state, h.imageBase_eq, h.bufferLen_eq]

/-! ### The operations on the state keep the view -/

theorem SameView.setStatus (w : Word) : SameView (s.setStatus w) (t.setStatus w) :=
  { h with csr := by simp only [State.setStatus_csr, h.csr] }

theorem SameView.setWait (b : Bool) : SameView (s.setWait b) (t.setWait b) :=
  { h with host := by simp only [State.setWait_host, h.host] }

theorem SameView.respond (r : Response) : SameView (s.respond r) (t.respond r) :=
  { h with host := by simp only [State.respond_host, h.host] }

/-- An error ends IDLE, where the position and FT are no part of the view (R45, R242, R276). -/
theorem SameView.raiseError (c : ErrCode) : SameView (raiseError c s) (raiseError c t) :=
  { h with
    csr := by simp only [raiseError_csr, h.csr]
    state := rfl
    host := by simp only [raiseError_host, h.host]
    pos := fun run => by cases run
    table := fun run => by cases run }

/-- START sets the position and builds FT from what both can see (R278). -/
theorem SameView.beginRun : SameView (beginRun s) (beginRun t) :=
  { h with
    state := rfl
    host := by simp only [Machine.beginRun, h.host, h.params, h.bufferSpan_eq]
    startMem := h.mem
    pos := fun _ => rfl
    table := fun _ hi => by
      have ht : t.params.strategy = .interleaved := h.params ▸ hi
      simp only [Machine.beginRun, ht, h.params, h.csr] }

end

variable {s t : State}

/-! ### The host's move -/

theorem SameView.execStart (h : SameView s t) : SameOutcome (execStart s) (execStart t) := by
  have hcleared := (h.setWait true).setStatus clearedStatus
  unfold Machine.execStart
  simp only [← h.bufferLen_eq, ← h.pixelProduct_eq, ← h.imageBase_eq, ← h.startRefusal_eq]
  split
  · exact .next (hcleared.raiseError _)
  split
  · exact .next (hcleared.raiseError _)
  split
  · exact .refused _
  · exact .next hcleared.beginRun

theorem SameView.exec (h : SameView s t) (i : Instr) : SameOutcome (exec i s) (exec i t) := by
  cases i with
  | nop => exact .next h
  | start => exact h.execStart

theorem SameOutcome.completeCommand {o p : Host.Outcome State Fault Refusal} (h : SameOutcome o p) :
    SameOutcome (completeCommand o) (completeCommand p) := by
  cases h with
  | next hv =>
    simp only [Machine.completeCommand, ← hv.host]
    split
    · exact .next hv
    · exact .next (hv.respond _)
  | fault r => exact .fault r
  | refused r => exact .refused r

theorem SameView.writeCmd (h : SameView s t) (w : Word) : SameOutcome (writeCmd w s) (writeCmd w t) := by
  unfold Machine.writeCmd
  split
  · exact (h.exec _).completeCommand
  · exact (SameOutcome.next (h.raiseError .illegalCmd)).completeCommand

theorem SameView.hostLoad (h : SameView s t) (addr : Word) (size : AccessSize) :
    SameOutcome (hostLoad addr size s) (hostLoad addr size t) := by
  unfold Machine.hostLoad
  rw [← h.params, ← h.host, ← h.mem]
  split
  · exact .refused _
  split
  · exact .refused _
  split
  · exact .refused _
  · exact .next (h.respond _)

theorem SameView.hostStore (h : SameView s t) (addr : Word) (size : AccessSize) (data : Word) :
    SameOutcome (hostStore addr size data s) (hostStore addr size data t) := by
  unfold Machine.hostStore
  rw [← h.params]
  split
  · exact .refused _
  split
  · exact .refused _
  · refine .next (SameView.respond ?_ _)
    exact { h with params := rfl, mem := by rw [h.mem], host := by rw [h.host] }

theorem SameView.hostRead (h : SameView s t) (addr : Word) (size : AccessSize) :
    SameOutcome (hostRead addr size s) (hostRead addr size t) := by
  unfold Machine.hostRead
  rw [← h.params]
  split
  · rw [h.readReg_eq]
    exact .next (h.respond _)
  · exact .refused _
  · exact h.hostLoad addr size

theorem SameView.hostWrite (h : SameView s t) (addr : Word) (size : AccessSize) (data : Word) :
    SameOutcome (hostWrite addr size data s) (hostWrite addr size data t) := by
  unfold Machine.hostWrite
  rw [← h.params]
  split
  · exact h.writeCmd data
  · refine .next (SameView.respond ?_ _)
    exact { h with params := rfl, csr := by rw [h.csr] }
  · exact .refused _
  · exact h.hostStore addr size data

theorem SameView.hostOp (h : SameView s t) (op : HostOp) : SameOutcome (hostOp op s) (hostOp op t) := by
  cases op with
  | read addr size => exact h.hostRead addr size
  | write addr size data => exact h.hostWrite addr size data
  | clean r =>
    refine .next (SameView.respond ?_ _)
    exact { h with host := by rw [h.host] }
  | invalidate r =>
    simp only [Machine.hostOp, hostInvalidate, ← h.params, ← h.host]
    split
    · exact .refused _
    · refine .next (SameView.respond ?_ _)
      exact { h with params := rfl, host := rfl }

theorem SameView.hostStep (h : SameView s t) : SameOutcome (hostStep s) (hostStep t) := by
  unfold Machine.hostStep
  rw [← h.host]
  split
  · exact .next h
  split
  · exact .next h
  · refine SameView.hostOp ?_ _
    exact { h with host := rfl }

/-! ### The Sequencer's move -/

/-- Only active lanes reach memory: the first `a` lanes of a gained load are those of the bytes read (R85, R195). -/
theorem take_gainVec_loadBytes (m : Memory) (base n : Nat) (fill : Nat → Byte) (f : List Byte) {a : Nat} (ha : a ≤ n) :
    (gainVec (loadBytes m base a n fill) f).take a = gainVec (m.readBytes base a) (f.take a) := by
  have hload : (loadBytes m base a n fill).take a = m.readBytes base a := by
    refine List.ext_getElem (by simpa using ha) fun i hi _ => ?_
    have : i < a := by simp at hi; omega
    simp [loadBytes, Memory.readBytes, this]
  rw [gainVec, wideVec, ← List.map_take, List.take_zipWith, hload]
  rfl

/-- A planar batch stores the same bytes in both, since every one of them comes from an active lane (R214). -/
theorem SameView.planarOut_eq (h : SameView s t) (run : s.seq.state = .run) :
    planarBase s = planarBase t ∧ planarOut s = planarOut t := by
  have hbase : planarBase s = planarBase t := by simp only [planarBase, h.imageBase_eq, h.pos run]
  have hactive : planarActive s = planarActive t := by
    simp only [planarActive, h.params, h.pixelCount_eq, h.pos run]
  refine ⟨hbase, List.ext_getElem (by simp [hactive]) fun k hs ht => ?_⟩
  rw [← List.getD_eq_getElem _ 0 hs, ← List.getD_eq_getElem _ 0 ht, planarOut_getD (by simpa using hs),
    planarOut_getD (by simpa using ht), hbase, h.mem, h.channelFactor_eq]

theorem SameView.planarBatch (h : SameView s t) (run : s.seq.state = .run) :
    SameView (planarBatch s) (planarBatch t) := by
  obtain ⟨hbase, hout⟩ := h.planarOut_eq run
  have hmem : s.mem.writeBytes (planarBase s) (planarOut s) = t.mem.writeBytes (planarBase t) (planarOut t) := by
    rw [h.mem, hbase, hout]
  exact { h with
    mem := hmem
    pos := fun _ => congrArg₂ (· + ·) (h.pos run) (congrArg _ h.params) }

/-- An interleaved iteration stores the same bytes in both (R246). -/
theorem SameView.interleavedStored_eq (h : SameView s t) (run : s.seq.state = .run)
    (strategy : s.params.strategy = .interleaved) :
    interleavedBase s = interleavedBase t ∧
      (interleavedGain s).take (interleavedActive s) = (interleavedGain t).take (interleavedActive t) := by
  have hbase : interleavedBase s = interleavedBase t := by
    simp only [interleavedBase, h.imageBase_eq, h.pos run]
  have hactive : interleavedActive s = interleavedActive t := by
    simp only [interleavedActive, h.params, h.bufferLen_eq, h.pos run]
  refine ⟨hbase, ?_⟩
  simp only [interleavedGain, interleavedLoad, take_gainVec_loadBytes, interleavedActive_le]
  rw [h.mem, hbase, hactive, h.table run strategy]

theorem SameView.interleavedBatch (h : SameView s t) (run : s.seq.state = .run)
    (strategy : s.params.strategy = .interleaved) : SameView (interleavedBatch s) (interleavedBatch t) := by
  obtain ⟨hbase, hstored⟩ := h.interleavedStored_eq run strategy
  have hmem : s.mem.writeBytes (interleavedBase s) ((interleavedGain s).take (interleavedActive s)) =
      t.mem.writeBytes (interleavedBase t) ((interleavedGain t).take (interleavedActive t)) := by
    rw [h.mem, hbase, hstored]
  exact { h with
    mem := hmem
    pos := fun _ => congrArg₂ (· + ·) (h.pos run) (congrArg (fun p => alignedStride p.lanes) h.params) }

theorem SameView.runBatch (h : SameView s t) (run : s.seq.state = .run) : SameView (runBatch s) (runBatch t) := by
  unfold Machine.runBatch
  rw [← h.params]
  cases strategy : s.params.strategy with
  | planar => exact h.planarBatch run
  | interleaved => exact h.interleavedBatch run strategy

/-- The end of a run leaves the block IDLE; the draws it makes are no part of the view (R279). -/
theorem SameView.finishRun (h : SameView s t) : SameView (finishRun s) (finishRun t) :=
  { h with
    csr := by simp only [finishRun_csr, h.csr]
    state := rfl
    host := by simp only [finishRun_host, h.host]
    pos := fun run => by cases run
    table := fun run => by cases run }

theorem SameView.sequencerStep (h : SameView s t) (run : s.seq.state = .run) :
    SameView (sequencerStep false s) (sequencerStep false t) := by
  unfold Machine.sequencerStep
  rw [← h.pos run, ← h.runEnd_eq]
  split
  · exact h.runBatch run
  · exact h.finishRun

/-! ### One step -/

theorem SameView.agentStep (h : SameView s t) : SameOutcome (agentStep false s) (agentStep false t) := by
  unfold Machine.agentStep
  rw [← h.state]
  cases hs : s.seq.state with
  | run => exact .next (h.sequencerStep hs)
  | idle => exact h.hostStep

theorem SameView.step (h : SameView s t) (quiet : s.inputs = []) : SameOutcome (step s) (step t) := by
  have quiet' : t.inputs = [] := h.inputs ▸ quiet
  unfold Machine.step systemStep inputStep
  rw [← h.params, ← h.runInMemory_eq, quiet, quiet']
  split
  · exact .refused _
  split
  · exact .fault _
  · exact h.agentStep

/-- Settles O60: the two steps have the same outcome, up to what no host can see. -/
theorem unspecifiedValuesAreUnobservable : Obligations.UnspecifiedValuesAreUnobservable := by
  intro s t s' h quiet hs
  have hout := h.step quiet
  rw [hs] at hout
  cases ht : Machine.step t with
  | next t' =>
    rw [ht] at hout
    cases hout with
    | next hv => exact ⟨t', rfl, hv⟩
  | fault r => rw [ht] at hout; cases hout
  | refused r => rw [ht] at hout; cases hout

end Sys2Proof.Safety
end

section
/-! PROOFS. The register window: what an access reaches, what a register's read and write do in one step, and the host's
byte accesses beside it. -/

namespace Sys2Proof.Machine

open Sys2Proof.Safety

/-! ### What an access reaches -/

theorem regAt_regOffset (r : RegName) : regAt (regOffset r) = some r := by
  cases r <;> rfl

/-- A register starts only at its own offset. -/
theorem regAt_eq_some {n : Nat} {r : RegName} (h : regAt n = some r) : n = regOffset r := by
  unfold regAt at h
  split at h <;> cases h <;> rfl

theorem regOffset_aligned (r : RegName) : regOffset r % 4 = 0 := by
  cases r <;> rfl

theorem regOffset_lt (r : RegName) : regOffset r < 32 := by
  cases r <;> decide

/-- The window ends inside the address space, so no register address wraps (R10, R41). -/
theorem regAddr_toNat {p : Params} (hb : legalBuild p = true) (r : RegName) :
    (regAddr p r).toNat = p.csrBase.toNat + regOffset r := by
  obtain ⟨_, _, _, hend⟩ := (legalBuild_iff p).1 hb
  have hr := regOffset_lt r
  rw [regAddr, BitVec.toNat_add, BitVec.toNat_ofNat, Nat.mod_eq_of_lt (a := regOffset r) (by omega),
    Nat.mod_eq_of_lt (by omega)]

/-- A 32-bit access at a register's address reaches it (R41). -/
theorem accessTarget_regAddr {p : Params} (hb : legalBuild p = true) (r : RegName) :
    accessTarget p (regAddr p r) .word = .register r := by
  have haddr := regAddr_toNat hb r
  have hr := regOffset_lt r
  have htouch : touchesWindow p (regAddr p r) .word = true :=
    (touchesWindow_iff p _ _).2 ⟨by omega, by rw [haddr, AccessSize.bytes]; omega⟩
  have hoff : regAt ((regAddr p r).toNat - p.csrBase.toNat) = some r := by
    rw [haddr, Nat.add_sub_cancel_left, regAt_regOffset]
  rw [accessTarget, if_pos htouch, if_pos ⟨rfl, by omega⟩, hoff]

/-- An access that touches the window and is narrow or misaligned reaches no register (R41; log 10). -/
theorem accessTarget_busError {p : Params} {addr : Word} {size : AccessSize} (hb : legalBuild p = true)
    (touch : touchesWindow p addr size = true) (bad : size ≠ .word ∨ addr.toNat % 4 ≠ 0) :
    accessTarget p addr size = .busError := by
  obtain ⟨_, _, haligned, _⟩ := (legalBuild_iff p).1 hb
  rw [accessTarget, if_pos touch]
  split
  · next hin =>
    obtain ⟨hword, hbase⟩ := hin
    have hnone : regAt (addr.toNat - p.csrBase.toNat) = none := by
      refine Option.eq_none_iff_forall_ne_some.2 fun r hr => ?_
      have hoff := regAt_eq_some hr
      have h4 := regOffset_aligned r
      rcases bad with hsize | hmis
      · exact hsize hword
      · omega
    rw [hnone]
  · rfl

/-- Settles O15: the window does not wrap, and its offsets name their registers. -/
theorem registerAddressReachesRegister : Obligations.RegisterAddressReachesRegister :=
  fun _ r hb => ⟨regAddr_toNat hb r, accessTarget_regAddr hb r⟩

/-- Settles O20: such an access has no register for its target, so the read and the write are both refused. -/
theorem malformedWindowAccessGetsBusError : Obligations.MalformedWindowAccessGetsBusError := by
  intro s op addr size rest hn hop hlow hhigh bad
  have htarget : accessTarget (taken s rest).params addr size = .busError :=
    accessTarget_busError hn.build ((touchesWindow_iff _ _ _).2 ⟨hlow, hhigh⟩) bad
  rw [step_of_nextOp hn]
  rcases hop with rfl | ⟨v, rfl⟩
  · rw [hostOp, hostRead, htarget]
  · rw [hostOp, hostWrite, htarget]

/-! ### FACTOR words -/

/-- Legal fields are stored as they are (R40). -/
theorem clampFactor_of_le {f : Byte} (h : f.toNat ≤ 128) : clampFactor f = f := if_pos h

/-- Settles O4: the four fields are disjoint, and the clamp leaves legal ones alone. -/
theorem factorFieldsRoundTrip : Obligations.FactorFieldsRoundTrip := by
  intro fr fg fb
  obtain ⟨h0, h1, h2, h3⟩ := factorField_factorWord fr fg fb
  refine ⟨h0, h1, h2, h3, fun hr hg hb => ?_⟩
  rw [storedFactor, h0, h1, h2, clampFactor_of_le hr, clampFactor_of_le hg, clampFactor_of_le hb]

/-! ### One step of a register access -/

/-- A write of a register other than CMD is one step that stores what `writeReg` says and completes (R36 to R42). -/
theorem step_of_regWrite {s : State} {r : RegName} {v : Word} {rest : List HostOp}
    (h : NextOp s (.write (regAddr s.params r) .word v) rest) (hr : r ≠ .cmd) :
    step s = .next (State.respond { taken s rest with csr := writeReg r v s.csr } .done) := by
  have htarget : accessTarget (taken s rest).params (regAddr s.params r) .word = .register r :=
    accessTarget_regAddr h.build r
  rw [step_of_nextOp h, hostOp, hostWrite, htarget]
  cases r with
  | cmd => exact absurd rfl hr
  | _ => rfl

/-- A read of a register is one step that answers its value and changes nothing (R33 to R42). -/
theorem step_of_regRead {s : State} {r : RegName} {rest : List HostOp}
    (h : NextOp s (.read (regAddr s.params r) .word) rest) :
    step s = .next ((taken s rest).respond (.data (readReg r s))) := by
  have htarget : accessTarget (taken s rest).params (regAddr s.params r) .word = .register r :=
    accessTarget_regAddr h.build r
  have hvalue : readReg r (taken s rest) = readReg r s := by cases r <;> rfl
  rw [step_of_nextOp h, hostOp, hostRead, htarget, ← hvalue]

/-- Settles O16: each of the four is a register write with its own field. -/
theorem plainRegisterWrites : Obligations.PlainRegisterWrites := by
  intro s r v rest h
  refine ⟨?_, ?_, ?_, ?_⟩ <;> rintro rfl <;> exact step_of_regWrite h (by decide)

/-- Settles O17: what FACTOR stores is the word of the clamped fields. -/
theorem factorWriteClamps : Obligations.FactorWriteClamps := by
  intro s v rest h
  obtain ⟨hfields, hreserved⟩ := factorField_storedFactor v
  exact ⟨storedFactor v, step_of_regWrite h (by decide), hfields 0 (by decide), hfields 1 (by decide),
    hfields 2 (by decide), hreserved⟩

/-- Settles O18: the write leaves the registers as they were. -/
theorem readOnlyWritesIgnored : Obligations.ReadOnlyWritesIgnored := by
  rintro s r v rest h (rfl | rfl)
  · exact step_of_regWrite h (by decide)
  · exact step_of_regWrite h (by decide)

/-- Settles O19: the value is the one `readReg` names, CAP's by its two fields. -/
theorem registerReads : Obligations.RegisterReads := by
  intro s r rest h
  obtain ⟨_, hlanes, _, _⟩ := (legalBuild_iff s.params).1 h.build
  refine ⟨readReg r s, step_of_regRead h, ?_, ?_, ?_, ?_, ?_, ?_, ?_, ?_⟩ <;> rintro rfl
  · rw [readReg, capWord_toNat s.params hlanes]
    cases s.params.strategy <;> rfl
  all_goals rfl

/-! ### The host's byte accesses to memory -/

/-- A byte access outside the window is to system memory (R80). -/
theorem accessTarget_byte_outside {p : Params} {addr : Word}
    (h : ¬(p.csrBase.toNat ≤ addr.toNat ∧ addr.toNat < p.csrBase.toNat + 32)) :
    accessTarget p addr .byte = .memory := by
  refine accessTarget_memory (Bool.eq_false_iff.2 fun htouch => h ?_)
  obtain ⟨hlow, hhigh⟩ := (touchesWindow_iff p addr .byte).1 htouch
  rw [AccessSize.bytes] at hhigh
  exact ⟨by omega, hlow⟩

/-- An address in none of the spans. -/
theorem spanMeetsAny_address_eq_false {a : Nat} {l : List Span} (h : ∀ d ∈ l, ¬(d.base ≤ a ∧ a < d.base + d.len)) :
    spanMeetsAny ⟨a, 1⟩ l = false := by
  refine Bool.eq_false_iff.2 fun hmeets => ?_
  obtain ⟨d, hd, hin⟩ := (spanMeetsAny_address a l).1 hmeets
  exact h d hd hin

theorem spanMeetsAny_cons_self (a : Nat) (l : List Span) : spanMeetsAny ⟨a, 1⟩ (⟨a, 1⟩ :: l) = true :=
  (spanMeetsAny_address a _).2 ⟨⟨a, 1⟩, List.mem_cons_self, Nat.le_refl a, Nat.lt_succ_self a⟩

/-- A byte read off every device that no invalidate is owed for answers the byte held (log 13, log 14). -/
theorem hostLoad_byte {s : State} {addr : Word} (device : spanMeetsAny ⟨addr.toNat, 1⟩ s.params.deviceMem = false)
    (fresh : s.params.coherent = true ∨ spanMeetsAny ⟨addr.toNat, 1⟩ s.host.stale = false) :
    hostLoad addr .byte s = .next (s.respond (.byte (s.mem.read addr.toNat))) := by
  have hfresh : ¬(s.params.coherent = false ∧ spanMeetsAny ⟨addr.toNat, 1⟩ s.host.stale = true) := by
    rintro ⟨hc, hs⟩
    rcases fresh with h | h <;> simp_all
  rw [hostLoad, if_neg (by simp), if_neg (by simp [device]), if_neg hfresh]

/-- A byte write off every device writes that byte and completes; when the platform is not coherent a clean of the byte
comes to be owed (R92; log 13). -/
theorem hostStore_byte {s : State} {addr : Word} (data : Word)
    (device : spanMeetsAny ⟨addr.toNat, 1⟩ s.params.deviceMem = false) :
    ∃ t, hostStore addr .byte data s = .next t ∧ t.mem = s.mem.write addr.toNat (data.setWidth 8) ∧
      t.csr = s.csr ∧ t.seq = s.seq ∧ t.data = s.data ∧ t.params = s.params ∧ t.trace = s.trace ∧
      t.host.responses = s.host.responses ++ [.done] ∧ t.host.queue = s.host.queue ∧
      spanMeetsAny ⟨addr.toNat, 1⟩ t.host.unclean =
        (spanMeetsAny ⟨addr.toNat, 1⟩ s.host.unclean || !s.params.coherent) := by
  rw [hostStore, if_neg (by simp), if_neg (by simp [device])]
  refine ⟨_, rfl, rfl, rfl, rfl, rfl, rfl, rfl, ?_⟩
  cases hc : s.params.coherent with
  | true => simp
  | false => simp [spanMeetsAny_cons_self]

/-- Settles O21: both accesses have memory for their target, and a write is read back at its own address alone. -/
theorem hostByteWriteChangesOneByte : Obligations.HostByteWriteChangesOneByte := by
  intro s addr rest hdevice hwindow
  have htarget : accessTarget (taken s rest).params addr .byte = .memory := accessTarget_byte_outside hwindow
  have device : spanMeetsAny ⟨addr.toNat, 1⟩ s.params.deviceMem = false := spanMeetsAny_address_eq_false hdevice
  constructor
  · intro hn fresh
    rw [step_of_nextOp hn, hostOp, hostRead, htarget]
    exact hostLoad_byte (s := taken s rest) device fresh
  · intro data hn hwf
    obtain ⟨t, hstore, hmem, hframe⟩ := hostStore_byte (s := taken s rest) data device
    rw [step_of_nextOp hn, hostOp, hostWrite, htarget]
    refine ⟨t, hstore, fun a => ?_, hframe⟩
    rw [hmem]
    exact Memory.read_write hwf addr.toNat a (data.setWidth 8)

end Sys2Proof.Machine
end

section
/-! SUPPORT. The accesses of one batch: which bytes, in which order, and what they see and leave (R84 to R86, R91). -/

namespace Sys2Proof.Machine

open Sys2Proof.Safety

/-! ### Cells -/

/-- A cell of `cellsFrom base vs` holds the byte of `vs` at its place. -/
theorem getD_of_mem_cellsFrom {base : Nat} {vs : List Byte} {c : Host.Cell} (h : c ∈ cellsFrom base vs) :
    vs.getD (c.1 - base) 0 = c.2 := by
  induction vs generalizing base with
  | nil => simp [cellsFrom] at h
  | cons v vs ih =>
    rcases List.mem_cons.1 h with rfl | h
    · simp
    · have hc := mem_cellsFrom h
      rw [show c.1 - base = (c.1 - (base + 1)) + 1 by omega, List.getD_cons_succ]
      exact ih h

/-- The cells recorded of a read hold what memory held. -/
theorem read_of_mem_cellsFrom_readBytes {m : Memory} {base n : Nat} {c : Host.Cell}
    (h : c ∈ cellsFrom base (m.readBytes base n)) : m.read c.1 = c.2 := by
  have hc := mem_cellsFrom h
  rw [Memory.readBytes_length] at hc
  rw [← getD_of_mem_cellsFrom h, Memory.readBytes_getD (by omega), Nat.add_sub_cancel' hc.1]

/-! ### A batch -/

/-- Under INTERLEAVED, FT has a lane for every lane of VI (R48): without it the gain would drop lanes. -/
def TableReady (s : State) : Prop := s.params.strategy = .interleaved → s.data.ft.length = s.params.lanes

/-- `rs` and `ws` are the accesses of the batch at `s`: the bytes of its span, read from memory as it was, then written. -/
structure BatchAccesses (s : State) (rs ws : List Host.Cell) : Prop where
  trace : (runBatch s).trace = s.trace ++ [.batch rs ws]
  reads : rs.map Prod.fst = List.range' (batchSpan s).base (batchSpan s).len
  writes : ws.map Prod.fst = List.range' (batchSpan s).base (batchSpan s).len
  before : ∀ c ∈ rs, s.mem.read c.1 = c.2
  mem : (runBatch s).mem = s.mem.writeCells ws

theorem planarBatch_accesses {s : State} (planar : s.params.strategy = .planar) :
    BatchAccesses s (cellsFrom (planarBase s) (s.mem.readBytes (planarBase s) (3 * planarActive s)))
      (cellsFrom (planarBase s) (planarOut s)) where
  trace := by simp only [runBatch, planar, planarBatch]
  reads := by simp only [batchSpan, planar, cellsFrom_addresses, Memory.readBytes_length]
  writes := by simp only [batchSpan, planar, cellsFrom_addresses, planarOut_length]
  before _ := read_of_mem_cellsFrom_readBytes
  mem := by simp only [runBatch, planar]; rfl

theorem interleavedBatch_accesses {s : State} (interleaved : s.params.strategy = .interleaved)
    (table : s.data.ft.length = s.params.lanes) :
    BatchAccesses s (cellsFrom (interleavedBase s) (s.mem.readBytes (interleavedBase s) (interleavedActive s)))
      (cellsFrom (interleavedBase s) ((interleavedGain s).take (interleavedActive s))) where
  trace := by simp only [runBatch, interleaved, interleavedBatch]
  reads := by simp only [batchSpan, interleaved, cellsFrom_addresses, Memory.readBytes_length]
  writes := by
    simp only [batchSpan, interleaved, cellsFrom_addresses, List.length_take, interleavedGain_length table,
      Nat.min_eq_left (interleavedActive_le s)]
  before _ := read_of_mem_cellsFrom_readBytes
  mem := by simp only [runBatch, interleaved]; rfl

/-- What a batch of either strategy accesses. -/
theorem runBatch_accesses {s : State} (table : TableReady s) : ∃ rs ws, BatchAccesses s rs ws := by
  cases hs : s.params.strategy with
  | planar => exact ⟨_, _, planarBatch_accesses hs⟩
  | interleaved => exact ⟨_, _, interleavedBatch_accesses hs (table hs)⟩

/-- A batch of either strategy stays inside the buffer (R86). -/
theorem batchSpan_in_buffer {s : State} (more : s.seq.pos < runEnd s) :
    imageBase s ≤ (batchSpan s).base ∧ (batchSpan s).base + (batchSpan s).len ≤ imageBase s + bufferLen s := by
  unfold runEnd at more
  unfold batchSpan
  cases hs : s.params.strategy with
  | planar => exact planar_in_buffer (by simpa [hs] using more)
  | interleaved => exact interleaved_in_buffer (by simpa [hs] using more)

@[simp] theorem runBatch_inputs (s : State) : (runBatch s).inputs = s.inputs := by
  unfold runBatch; split <;> rfl

@[simp] theorem runBatch_table (s : State) : (runBatch s).data.ft = s.data.ft := by
  unfold runBatch; split <;> rfl

/-- A batch advances seq.pos by N pixels or S bytes (R45). -/
@[simp] theorem runBatch_pos (s : State) : (runBatch s).seq.pos = s.seq.pos + batchAdvance s.params := by
  unfold runBatch batchAdvance
  cases s.params.strategy <;> rfl

/-- Below the loop bound, with no memory error, the Sequencer makes a batch (R283). -/
theorem sequencerStep_of_more {s : State} (more : s.seq.pos < runEnd s) : sequencerStep false s = runBatch s := by
  rw [sequencerStep, if_pos more, if_neg Bool.false_ne_true]

/-- At the loop bound the run ends (R279). -/
theorem sequencerStep_of_ended {s : State} (ended : runEnd s ≤ s.seq.pos) (m : Bool) :
    sequencerStep m s = finishRun s := by
  rw [sequencerStep, if_neg (Nat.not_lt.2 ended)]

/-- The step of a run that nothing disturbs, below the loop bound (R283). -/
theorem step_of_running_more {s : State} (h : Running s) (more : s.seq.pos < runEnd s) :
    step s = .next (runBatch { s with inputs := s.inputs.tail }) := by
  rw [step_of_running h]
  exact congrArg _ (sequencerStep_of_more more)

/-! ### The order of the writes -/

/-- Writes to two different bytes commute. -/
theorem Memory.write_comm {m : Memory} (h : m.wf = true) {a b : Nat} (hab : a ≠ b) (ha : a < 2 ^ 32) (hb : b < 2 ^ 32)
    (v u : Byte) : (m.write a v).write b u = (m.write b u).write a v := by
  have hav := Memory.write_wf (v := v) h ha
  have hbu := Memory.write_wf (v := u) h hb
  refine Memory.ext (Memory.write_wf hav hb) (Memory.write_wf hbu ha) fun x => ?_
  rw [Memory.read_write hav, Memory.read_write h, Memory.read_write hbu, Memory.read_write h]
  split
  · next hx => rw [if_neg (by omega)]
  · rfl

/-- Settles O34, by induction on the permutation; an exchange of two neighbours is `Memory.write_comm`. -/
theorem writeOrderWithinBatchIsFree : Obligations.WriteOrderWithinBatchIsFree := by
  intro m ws ws' hwf hperm
  induction hperm generalizing m with
  | nil => exact fun _ _ => rfl
  | cons c _ ih =>
    intro distinct bound
    obtain ⟨hc, hcs⟩ := List.forall_mem_cons.1 bound
    exact ih _ (Memory.write_wf hwf hc) (List.nodup_cons.1 distinct).2 hcs
  | swap c d cs =>
    intro distinct bound
    have hne : d.1 ≠ c.1 := fun he => (List.nodup_cons.1 distinct).1 (by simp [he])
    simp only [Memory.writeCells,
      Memory.write_comm hwf hne (bound d (by simp)) (bound c (by simp)) d.2 c.2]
  | trans hperm₁ _ ih₁ ih₂ =>
    intro distinct bound
    exact (ih₁ m hwf distinct bound).trans
      (ih₂ m hwf (((hperm₁.map Prod.fst).nodup_iff).1 distinct) fun c hc => bound c (hperm₁.mem_iff.2 hc))

/-- Settles O33: the accesses are those of `runBatch_accesses`, and their span lies in the buffer. -/
theorem batchReadsBeforeItWrites : Obligations.BatchReadsBeforeItWrites := by
  intro s running more table
  obtain ⟨rs, ws, h⟩ := runBatch_accesses (s := { s with inputs := s.inputs.tail }) fun _ => table
  refine ⟨_, rs, ws, step_of_running_more running more, h.trace, h.reads.trans h.writes.symm,
    h.writes ▸ List.nodup_range', h.before, h.mem, fun c hc => ?_⟩
  have hin : c.1 ∈ ws.map Prod.fst := List.mem_map_of_mem hc
  rw [h.writes, List.mem_range'_1] at hin
  have hspan := batchSpan_in_buffer (s := { s with inputs := s.inputs.tail }) more
  exact ⟨hspan.1.trans hin.1, hin.2.trans_le hspan.2⟩

end Sys2Proof.Machine
end

section
/-! SUPPORT. A run that nothing disturbs, as iterated batches and the loop test, and the START that begins it. -/

namespace Sys2Proof.Machine

open Sys2Proof.Safety

/-! ### Counts -/

theorem le_ceilDiv_mul (a : Nat) {b : Nat} (hb : 0 < b) : a ≤ ceilDiv a b * b := by
  have hdiv := Nat.div_add_mod (a + b - 1) b
  have hmod := Nat.mod_lt (a + b - 1) hb
  rw [ceilDiv, Nat.mul_comm]
  omega

theorem ceilDiv_mul_lt (a : Nat) {b : Nat} (hb : 0 < b) : ceilDiv a b * b < a + b := by
  have hdiv := Nat.div_mul_le_self (a + b - 1) b
  rw [ceilDiv]
  omega

/-- Three lanes or more make a stride, and N is less than two strides (R240). -/
theorem alignedStride_bounds {n : Nat} (h : 3 ≤ n) : 0 < alignedStride n ∧ n ≤ 2 * alignedStride n := by
  unfold alignedStride
  omega

/-- A legal build advances at every batch (R8). -/
theorem batchAdvance_pos {p : Params} (hb : legalBuild p = true) : 0 < batchAdvance p := by
  obtain ⟨hmin, _⟩ := (legalBuild_iff p).1 hb
  unfold batchAdvance
  cases hs : p.strategy with
  | planar =>
    rw [hs] at hmin
    exact hmin
  | interleaved =>
    rw [hs] at hmin
    exact (alignedStride_bounds hmin).1

/-! ### A run that nothing disturbs -/

/-- A run in progress that START began, with no input of the platform to come: the buffer is in memory and holds whole
pixels, and FT has its lanes. -/
structure QuietRun (s : State) : Prop where
  build : legalBuild s.params = true
  run : s.seq.state = .run
  quiet : s.inputs = []
  range : imageBase s + bufferLen s ≤ 2 ^ 32
  pixels : 3 ∣ bufferLen s
  table : TableReady s

variable {s : State}

theorem QuietRun.step_eq (h : QuietRun s) : step s = .next (sequencerStep false s) := by
  have hs : ({ s with inputs := s.inputs.tail } : State) = s := by rw [h.quiet, List.tail_nil, ← h.quiet]
  rw [step_of_running ⟨h.build, h.run, h.range, by simp [h.quiet]⟩, hs]

@[simp] theorem runBatch_imageBase (s : State) : imageBase (runBatch s) = imageBase s := by simp [imageBase]

@[simp] theorem runBatch_bufferLen (s : State) : bufferLen (runBatch s) = bufferLen s := by simp [bufferLen]

@[simp] theorem runBatch_runEnd (s : State) : runEnd (runBatch s) = runEnd s := by simp [runEnd, pixelCount]

theorem QuietRun.runBatch (h : QuietRun s) : QuietRun (runBatch s) where
  build := by simpa using h.build
  run := by simpa using h.run
  quiet := by simpa using h.quiet
  range := by simpa using h.range
  pixels := by simpa using h.pixels
  table := by simpa [TableReady] using h.table

/-! ### Iterated batches -/

/-- What no batch changes, and where seq.pos stands, after `n` batches. -/
structure BatchesMade (s : State) (n : Nat) (u : State) : Prop where
  quiet : QuietRun u
  params : u.params = s.params
  csr : u.csr = s.csr
  pos : u.seq.pos = s.seq.pos + n * batchAdvance s.params

theorem QuietRun.iterate (h : QuietRun s) (n : Nat) : BatchesMade s n (Machine.runBatch^[n] s) := by
  induction n with
  | zero => exact ⟨h, rfl, rfl, by simp⟩
  | succ n ih =>
    rw [Function.iterate_succ_apply']
    refine ⟨ih.quiet.runBatch, by simp [ih.params], by simp [ih.csr], ?_⟩
    rw [runBatch_pos, ih.params, ih.pos, Nat.succ_mul, Nat.add_assoc]

/-- The steps of a quiet run are batches while seq.pos is below the loop bound. -/
theorem QuietRun.run_batches (h : QuietRun s) (n k : Nat)
    (more : s.seq.pos + n * batchAdvance s.params < runEnd s + batchAdvance s.params) :
    core.run (n + k) s = core.run k (Machine.runBatch^[n] s) := by
  induction n generalizing s with
  | zero => simp
  | succ n ih =>
    rw [Nat.succ_mul] at more
    have hstep : step s = .next (Machine.runBatch s) := by rw [h.step_eq, sequencerStep_of_more (by omega)]
    rw [Nat.succ_add, run_succ_of_next _ hstep, ih h.runBatch (by simp; omega), Function.iterate_succ_apply]

/-- A quiet run from position 0 makes `batchCount` batches and ends (R279, R351). -/
theorem QuietRun.run_to_end (h : QuietRun s) (start : s.seq.pos = 0) :
    core.run (batchCount s + 1) s = .next (finishRun (Machine.runBatch^[batchCount s] s)) := by
  have hadv := batchAdvance_pos h.build
  have hmade := h.iterate (batchCount s)
  have hend : runEnd (Machine.runBatch^[batchCount s] s) = runEnd s := by
    simp only [runEnd, pixelCount, bufferLen, hmade.params, hmade.csr]
  have ended : runEnd (Machine.runBatch^[batchCount s] s) ≤ (Machine.runBatch^[batchCount s] s).seq.pos := by
    rw [hend, hmade.pos, start, Nat.zero_add]
    exact le_ceilDiv_mul _ hadv
  rw [h.run_batches _ _ (by rw [start, Nat.zero_add]; exact ceilDiv_mul_lt _ hadv)]
  refine run_succ_of_next 0 ?_
  rw [hmade.quiet.step_eq, sequencerStep_of_ended ended]

/-! ### The START that begins it -/

/-- The state a START that passes enters RUN with (R274, R278). -/
def runBegun (s : State) : State := beginRun ((s.setWait true).setStatus clearedStatus)

theorem exec_start_of_startable (h : Startable s) : exec .start s = .next (runBegun s) := by
  rcases execStart_cases (s := s) rfl with ⟨hs, _⟩ | ⟨_, hr, _⟩ | ⟨_, _, ⟨r, hn, _⟩ | ⟨_, ho⟩⟩
  · exact absurd h.shape hs
  · exact absurd h.range (Nat.not_le.2 hr)
  · exact absurd (h.buffer.symm.trans hn) (by simp)
  · exact ho

theorem quietRun_of_startable (h : Startable s) (quiet : s.inputs = []) : QuietRun (runBegun s) where
  build := h.build
  run := rfl
  quiet := quiet
  range := h.range
  pixels := ⟨_, h.shape⟩
  table interleaved := by
    have hs : s.params.strategy = .interleaved := interleaved
    simp [runBegun, beginRun, hs]

/-- A START with no input of the platform to come is carried to its end by `batchCount` batches and the loop test. -/
theorem run_to_end_of_startable (h : Startable s) (quiet : s.inputs = []) :
    core.run (batchCount s + 1) (runBegun s) = .next (finishRun (runBatch^[batchCount s] (runBegun s))) :=
  (quietRun_of_startable h quiet).run_to_end rfl

end Sys2Proof.Machine
end

section
/-! PROOFS. How often a run accesses each byte (R86, R87), for both strategies at once: batches of W bytes begin every S
bytes, S <= W <= 2S, so a byte is accessed by the batch it begins in and, if near its start, by the one before. -/

namespace Sys2Proof.Machine

open Sys2Proof.Safety

/-! ### Batches as spans of the buffer -/

/-- How far apart batches begin, in bytes. -/
def batchStride (p : Params) : Nat :=
  match p.strategy with
  | .planar => 3 * p.lanes
  | .interleaved => alignedStride p.lanes

/-- How many bytes a batch accesses that the end of the buffer does not cut. -/
def batchWidth (p : Params) : Nat :=
  match p.strategy with
  | .planar => 3 * p.lanes
  | .interleaved => p.lanes

theorem batch_of_planar {p : Params} (h : p.strategy = .planar) :
    batchAdvance p = p.lanes ∧ batchStride p = 3 * p.lanes ∧ batchWidth p = 3 * p.lanes := by
  simp only [batchAdvance, batchStride, batchWidth, h, and_self]

theorem batch_of_interleaved {p : Params} (h : p.strategy = .interleaved) :
    batchAdvance p = alignedStride p.lanes ∧ batchStride p = alignedStride p.lanes ∧ batchWidth p = p.lanes := by
  simp only [batchAdvance, batchStride, batchWidth, h, and_self]

theorem batchStride_bounds {p : Params} (hb : legalBuild p = true) :
    0 < batchStride p ∧ batchStride p ≤ batchWidth p ∧ batchWidth p ≤ 2 * batchStride p := by
  have hadv := batchAdvance_pos hb
  cases hs : p.strategy with
  | planar =>
    obtain ⟨hA, hS, hW⟩ := batch_of_planar hs
    omega
  | interleaved =>
    obtain ⟨hA, hS, hW⟩ := batch_of_interleaved hs
    obtain ⟨hmin, _⟩ := (legalBuild_iff p).1 hb
    rw [hs] at hmin
    rw [hS, hW]
    exact ⟨hA ▸ hadv, alignedStride_le _, (alignedStride_bounds hmin).2⟩

/-- The batch at the `n`-th position begins `n` strides into the buffer and ends with its width or with the buffer. -/
theorem batchSpan_at {s : State} {n : Nat} (pixels : 3 ∣ bufferLen s) (pos : s.seq.pos = n * batchAdvance s.params) :
    batchSpan s = ⟨imageBase s + n * batchStride s.params,
      min (batchWidth s.params) (bufferLen s - n * batchStride s.params)⟩ := by
  unfold batchSpan
  cases hs : s.params.strategy with
  | planar =>
    obtain ⟨hA, hS, hW⟩ := batch_of_planar hs
    rw [hA] at pos
    simp only [planarBase, planarActive, activeCount, pixelCount, hS, hW, pos, Span.mk.injEq, Nat.mul_left_comm n 3,
      true_and]
    omega
  | interleaved =>
    obtain ⟨hA, hS, hW⟩ := batch_of_interleaved hs
    simp only [interleavedBase, interleavedActive, activeCount, hS, hW, pos, hA]

/-- The batches' bytes reach the end of the buffer (R351). -/
theorem bufferLen_le_batches {s : State} (hb : legalBuild s.params = true) (pixels : 3 ∣ bufferLen s) :
    bufferLen s ≤ batchCount s * batchStride s.params := by
  have hend : runEnd s ≤ batchCount s * batchAdvance s.params := le_ceilDiv_mul (runEnd s) (batchAdvance_pos hb)
  cases hs : s.params.strategy with
  | planar =>
    obtain ⟨hA, hS, _⟩ := batch_of_planar hs
    rw [hA, show runEnd s = bufferLen s / 3 by simp only [runEnd, hs, pixelCount]] at hend
    rw [hS, Nat.mul_left_comm]
    omega
  | interleaved =>
    obtain ⟨hA, hS, _⟩ := batch_of_interleaved hs
    rwa [hA, ← hS, show runEnd s = bufferLen s by simp only [runEnd, hs]] at hend

/-! ### Counting -/

theorem readCount_append (a : Nat) (l l' : List BatchRecord) :
    readCount a (l ++ l') = readCount a l + readCount a l' := by
  simp [readCount]

theorem writeCount_append (a : Nat) (l l' : List BatchRecord) :
    writeCount a (l ++ l') = writeCount a l + writeCount a l' := by
  simp [writeCount]

theorem count_range' (a base len : Nat) :
    (List.range' base len).count a = if base ≤ a ∧ a < base + len then 1 else 0 := by
  simp only [List.Nodup.count List.nodup_range', List.mem_range'_1]

/-- A batch reads and writes each byte of its span once and no other. -/
theorem BatchAccesses.counts {s : State} {rs ws : List Host.Cell} (h : BatchAccesses s rs ws) (a : Nat) :
    (readCount a [.batch rs ws] =
        if (batchSpan s).base ≤ a ∧ a < (batchSpan s).base + (batchSpan s).len then 1 else 0) ∧
      writeCount a [.batch rs ws] =
        if (batchSpan s).base ≤ a ∧ a < (batchSpan s).base + (batchSpan s).len then 1 else 0 := by
  simp only [readCount, writeCount, List.flatMap_singleton, recordReads, recordWrites, h.reads, h.writes, count_range',
    and_self]

/-- Byte `k` is one of the batch at stride `n` when it begins in it, or in the next one but among the bytes this one reaches
past its stride. -/
theorem in_batch_iff {S W : Nat} (hle : S ≤ W) (htwo : W ≤ 2 * S) (n : Nat) {k : Nat} (hpos : 0 < S) :
    n * S ≤ k ∧ k < n * S + W ↔ k / S = n ∨ k / S = n + 1 ∧ k % S < W - S := by
  have hdiv := Nat.div_add_mod k S
  have hmod := Nat.mod_lt k hpos
  rw [Nat.mul_comm n S]
  generalize k / S = q at *
  generalize k % S = r at *
  rcases (by omega : q < n ∨ q = n ∨ q = n + 1 ∨ n + 2 ≤ q) with hq | rfl | rfl | hq
  · have := Nat.mul_le_mul_left S (Nat.succ_le_of_lt hq)
    rw [Nat.mul_succ] at this
    omega
  · omega
  · rw [Nat.mul_succ] at hdiv
    omega
  · have := Nat.mul_le_mul_left S hq
    rw [Nat.mul_add] at this
    omega

/-- How often the first `n` batches access byte `k` of the buffer: once by the batch it begins in, and once more by the one
before when it is among the bytes that one reaches past its stride. -/
def accessesOfBatches (p : Params) (n k : Nat) : Nat :=
  (if k / batchStride p < n then 1 else 0) +
    if 1 ≤ k / batchStride p ∧ k / batchStride p ≤ n ∧ k % batchStride p < batchWidth p - batchStride p then 1 else 0

theorem accessesOfBatches_zero (p : Params) (k : Nat) : accessesOfBatches p 0 k = 0 := by
  rw [accessesOfBatches, if_neg (Nat.not_lt_zero _), if_neg (by omega)]

/-- Batch `n` adds one to the bytes of its width. -/
theorem accessesOfBatches_succ {p : Params} (hb : legalBuild p = true) (n k : Nat) :
    accessesOfBatches p (n + 1) k =
      accessesOfBatches p n k +
        if n * batchStride p ≤ k ∧ k < n * batchStride p + batchWidth p then 1 else 0 := by
  obtain ⟨hpos, hle, htwo⟩ := batchStride_bounds hb
  simp only [accessesOfBatches, in_batch_iff hle htwo n hpos]
  split_ifs <;> omega

/-- Once the batches reach past byte `k`, it has been accessed twice exactly when an earlier batch reached it too. -/
theorem accessesOfBatches_end {p : Params} (hb : legalBuild p = true) {n k : Nat} (hk : k < n * batchStride p) :
    accessesOfBatches p n k =
      if 1 ≤ k / batchStride p ∧ k % batchStride p < batchWidth p - batchStride p then 2 else 1 := by
  have hq : k / batchStride p < n := (Nat.div_lt_iff_lt_mul (batchStride_bounds hb).1).2 hk
  rw [accessesOfBatches]
  split_ifs <;> omega

/-- How often `n` batches from the start of the buffer of `s` access address `a`. -/
def accessesAt (s : State) (n a : Nat) : Nat :=
  if imageBase s ≤ a ∧ a < imageBase s + bufferLen s then accessesOfBatches s.params n (a - imageBase s) else 0

/-- The batch at the `n`-th position accesses what `accessesAt` grows by. -/
theorem accessesAt_succ {s u : State} {n : Nat} (made : BatchesMade s n u) (start : s.seq.pos = 0) (a : Nat) :
    accessesAt s (n + 1) a =
      accessesAt s n a + if (batchSpan u).base ≤ a ∧ a < (batchSpan u).base + (batchSpan u).len then 1 else 0 := by
  have hbase : imageBase u = imageBase s := by rw [imageBase, imageBase, made.csr]
  have hlen : bufferLen u = bufferLen s := by rw [bufferLen, bufferLen, made.csr]
  have hspan := batchSpan_at (n := n) made.quiet.pixels (by rw [made.pos, start, made.params, Nat.zero_add])
  rw [hbase, hlen, made.params] at hspan
  simp only [hspan, accessesAt, accessesOfBatches_succ (made.params ▸ made.quiet.build)]
  split_ifs <;> omega

/-! ### The accesses of a run -/

/-- By induction on the batches made: what they recorded counts as `accessesAt` says. -/
theorem QuietRun.counts {s : State} (h : QuietRun s) (start : s.seq.pos = 0) (n : Nat) :
    ∃ l, (Machine.runBatch^[n] s).trace = s.trace ++ l ∧
      ∀ a, readCount a l = accessesAt s n a ∧ writeCount a l = accessesAt s n a := by
  induction n with
  | zero => exact ⟨[], by simp, fun a => by simp [readCount, writeCount, accessesAt, accessesOfBatches_zero]⟩
  | succ n ih =>
    obtain ⟨l, htrace, hcounts⟩ := ih
    have made := h.iterate n
    obtain ⟨rs, ws, hacc⟩ := runBatch_accesses made.quiet.table
    refine ⟨l ++ [.batch rs ws], ?_, fun a => ?_⟩
    · rw [Function.iterate_succ_apply', hacc.trace, htrace, List.append_assoc]
    · obtain ⟨hread, hwrite⟩ := hcounts a
      obtain ⟨hreadBatch, hwriteBatch⟩ := hacc.counts a
      rw [readCount_append, writeCount_append, hread, hwrite, hreadBatch, hwriteBatch, accessesAt_succ made start a]
      exact ⟨rfl, rfl⟩

/-- How often a whole run accesses address `a`: a byte of the buffer twice when the batch before the one it begins in
reached it too, else once, and no other byte (R86, R87). -/
def accessesOfRun (s : State) (a : Nat) : Nat :=
  if imageBase s ≤ a ∧ a < imageBase s + bufferLen s then
    if 1 ≤ (a - imageBase s) / batchStride s.params ∧
        (a - imageBase s) % batchStride s.params < batchWidth s.params - batchStride s.params then 2 else 1
  else 0

theorem accessesAt_end {s : State} (hb : legalBuild s.params = true) (pixels : 3 ∣ bufferLen s) (a : Nat) :
    accessesAt s (batchCount s) a = accessesOfRun s a := by
  have hreach := bufferLen_le_batches hb pixels
  unfold accessesAt accessesOfRun
  split
  · exact accessesOfBatches_end hb (by omega)
  · rfl

/-- A START that nothing disturbs, run to its end, accesses each address as often as `accessesOfRun` says. -/
theorem run_counts_of_startable {s : State} (h : Startable s) (quiet : s.inputs = []) :
    ∃ t u l, exec .start s = .next t ∧ core.run (batchCount s + 1) t = .next u ∧ u.trace = s.trace ++ l ∧
      ∀ a, readCount a l = accessesOfRun s a ∧ writeCount a l = accessesOfRun s a := by
  obtain ⟨l, htrace, hcounts⟩ := (quietRun_of_startable h quiet).counts rfl (batchCount s)
  refine ⟨_, _, l, exec_start_of_startable h, run_to_end_of_startable h quiet, htrace, fun a => ?_⟩
  rw [← accessesAt_end h.build ⟨_, h.shape⟩]
  exact hcounts a

/-- Settles O46: under PLANAR the batches' bytes do not overlap. -/
theorem planarAccessesEachByteOnce : Obligations.PlanarAccessesEachByteOnce := by
  intro s h planar quiet
  have honce (a : Nat) :
      accessesOfRun s a = if imageBase s ≤ a ∧ a < imageBase s + bufferLen s then 1 else 0 := by
    obtain ⟨_, hS, hW⟩ := batch_of_planar planar
    simp [accessesOfRun, hS, hW]
  simpa only [honce] using run_counts_of_startable h quiet

/-- Settles O47: under INTERLEAVED a batch of N bytes reaches N - S bytes past its stride. -/
theorem interleavedAccessesEachByteOnceOrTwice : Obligations.InterleavedAccessesEachByteOnceOrTwice := by
  intro s h interleaved quiet
  obtain ⟨t, u, l, hstart, hrun, htrace, hcounts⟩ := run_counts_of_startable h quiet
  obtain ⟨_, hS, hW⟩ := batch_of_interleaved interleaved
  refine ⟨t, u, l, hstart, hrun, htrace, fun k hk => ?_, fun a hout => ?_⟩
  · have hin : accessesOfRun s (imageBase s + k) = if 1 ≤ k / alignedStride s.params.lanes ∧
        k % alignedStride s.params.lanes < s.params.lanes - alignedStride s.params.lanes then 2 else 1 := by
      simp [accessesOfRun, hS, hW, hk]
    exact hin ▸ hcounts _
  · have hnone : accessesOfRun s a = 0 := if_neg (by omega)
    exact hnone ▸ hcounts a

end Sys2Proof.Machine
end

section
/-! PROOFS. Refusals and duties of the host: where START has no meaning (R88, R89, R92), what cache maintenance ends and what
a run leaves owed (R92, R93), and that no step in the invariant faults (R86). -/

namespace Sys2Proof.Machine

open Sys2Proof.Safety

/-! ### Why START is refused -/

/-- A START whose checks pass is refused exactly for the reason `startRefusal` gives. -/
theorem exec_start_refused_iff {s : State} (shape : bufferLen s = 3 * pixelProduct s)
    (range : imageBase s + bufferLen s ≤ 2 ^ 32) (r : Refusal) :
    exec .start s = .refused r ↔ startRefusal s = some r := by
  rw [exec]
  rcases execStart_cases (s := s) rfl with ⟨hs, _⟩ | ⟨_, hr, _⟩ | ⟨_, _, ⟨q, hq, ho⟩ | ⟨hn, ho⟩⟩
  · exact absurd shape hs
  · exact absurd range (Nat.not_le.2 hr)
  · simp [ho, hq]
  · simp [ho, hn]

/-- Does the span `d` hold a byte of the buffer of `s`? -/
def HoldsBufferByte (s : State) (d : Span) : Prop :=
  ∃ a, imageBase s ≤ a ∧ a < imageBase s + bufferLen s ∧ d.base ≤ a ∧ a < d.base + d.len

theorem bufferMeets_iff (s : State) (d : Span) : spanMeets (bufferSpan s) d = true ↔ HoldsBufferByte s d := by
  simp only [spanMeets_iff, bufferSpan, HoldsBufferByte, and_assoc]

theorem bufferMeetsAny_iff (s : State) (l : List Span) :
    spanMeetsAny (bufferSpan s) l = true ↔ ∃ d ∈ l, HoldsBufferByte s d := by
  simp only [spanMeetsAny_iff, bufferSpan, HoldsBufferByte, and_assoc]

/-- The window is asked first (R89). -/
theorem startRefusal_of_window {s : State} (h : HoldsBufferByte s (windowSpan s.params)) :
    startRefusal s = some .bufferOverlapsWindow := by
  rw [startRefusal, if_pos ((bufferMeets_iff s _).2 h)]

/-- Then the devices (R88). -/
theorem startRefusal_of_device {s : State} (window : ¬HoldsBufferByte s (windowSpan s.params))
    (h : ∃ d ∈ s.params.deviceMem, HoldsBufferByte s d) : startRefusal s = some .bufferOnDevice := by
  rw [startRefusal, if_neg ((bufferMeets_iff s _).not.2 window), if_pos ((bufferMeetsAny_iff s _).2 h)]

/-- Then, on a platform that is not coherent, the cleans the host owes (R92). -/
theorem startRefusal_of_clear {s : State} (window : ¬HoldsBufferByte s (windowSpan s.params))
    (device : ¬∃ d ∈ s.params.deviceMem, HoldsBufferByte s d) :
    startRefusal s =
      if s.params.coherent = false ∧ spanMeetsAny (bufferSpan s) s.host.unclean then some .bufferNotCleaned else none := by
  rw [startRefusal, if_neg ((bufferMeets_iff s _).not.2 window), if_neg ((bufferMeetsAny_iff s _).not.2 device)]

/-- The buffer of a START that is not refused is off the window and off every device. -/
theorem clear_of_startRefusal_none {s : State} (h : startRefusal s = none) :
    ¬HoldsBufferByte s (windowSpan s.params) ∧ ¬∃ d ∈ s.params.deviceMem, HoldsBufferByte s d := by
  have window : ¬HoldsBufferByte s (windowSpan s.params) := fun hw => by simp [startRefusal_of_window hw] at h
  exact ⟨window, fun hd => by simp [startRefusal_of_device window hd] at h⟩

/-- Settles O12: the window is the first reason asked for. -/
theorem bufferOverlappingWindowRefused : Obligations.BufferOverlappingWindowRefused :=
  fun _ shape range overlap => (exec_start_refused_iff shape range _).2 (startRefusal_of_window overlap)

/-- Settles O13: with the window ruled out, a device is the next reason asked for. -/
theorem bufferOnDeviceRefused : Obligations.BufferOnDeviceRefused := by
  intro s shape range off device
  have window : ¬HoldsBufferByte s (windowSpan s.params) := fun ⟨a, hlow, hhigh, hin⟩ => off a hlow hhigh hin
  exact (exec_start_refused_iff shape range _).2 (startRefusal_of_device window device)

/-- Settles O14: with the window and the devices ruled out, the cleans owed decide. -/
theorem uncleanedBufferRefused : Obligations.UncleanedBufferRefused := by
  intro s shape range incoherent off
  have window : ¬HoldsBufferByte s (windowSpan s.params) := fun ⟨a, hlow, hhigh, hin⟩ => (off a hlow hhigh).1 hin
  have device : ¬∃ d ∈ s.params.deviceMem, HoldsBufferByte s d :=
    fun ⟨d, hd, a, hlow, hhigh, hin⟩ => (off a hlow hhigh).2 d hd hin
  change (∃ d ∈ s.host.unclean, HoldsBufferByte s d) ↔ _
  rw [exec_start_refused_iff shape range, startRefusal_of_clear window device, ← bufferMeetsAny_iff]
  simp [incoherent]

/-! ### Cache maintenance -/

/-- A range meets spans that hold one of its addresses. -/
theorem spanMeetsAny_iff_address (r : Span) (l : List Span) :
    spanMeetsAny r l = true ↔ ∃ a, r.base ≤ a ∧ a < r.base + r.len ∧ spanMeetsAny ⟨a, 1⟩ l = true := by
  rw [spanMeetsAny_iff]
  simp only [spanMeetsAny_address]
  constructor
  · rintro ⟨b, hb, a, ⟨hlow, hhigh⟩, hin⟩
    exact ⟨a, hlow, hhigh, b, hb, hin⟩
  · rintro ⟨a, hlow, hhigh, b, hb, hin⟩
    exact ⟨b, hb, a, ⟨hlow, hhigh⟩, hin⟩

/-- Settles O22: what is owed after is `spansMinus` of what was owed, which `spanMeetsAny_spansMinus` gives by address. -/
theorem maintenanceClearsItsRange : Obligations.MaintenanceClearsItsRange := by
  intro s r rest
  refine ⟨fun h => ?_, fun h allowed => ?_, fun h incoherent owed => ?_⟩
  · exact ⟨_, step_of_nextOp h, spanMeetsAny_spansMinus s.host.unclean r⟩
  · have clean : ¬(s.params.coherent = false ∧ spanMeetsAny r s.host.unclean = true) := by
      rintro ⟨incoherent, hmeets⟩
      obtain ⟨a, hlow, hhigh, howed⟩ := (spanMeetsAny_iff_address r _).1 hmeets
      rcases allowed with coherent | hnone
      · simp [incoherent] at coherent
      · simp [hnone a hlow hhigh] at howed
    exact ⟨_, (step_of_nextOp h).trans (if_neg clean), spanMeetsAny_spansMinus s.host.stale r⟩
  · exact (step_of_nextOp h).trans (if_pos ⟨incoherent, (spanMeetsAny_iff_address r _).2 owed⟩)

/-- A byte read off every device that an invalidate is owed for is refused (R93; log 13). -/
theorem hostLoad_stale {s : State} {addr : Word} (device : spanMeetsAny ⟨addr.toNat, 1⟩ s.params.deviceMem = false)
    (incoherent : s.params.coherent = false) (stale : spanMeetsAny ⟨addr.toNat, 1⟩ s.host.stale = true) :
    hostLoad addr .byte s = .refused .staleRead := by
  rw [hostLoad, if_neg (by simp), if_neg (by simp [device]), if_pos ⟨incoherent, stale⟩]

/-- On a platform that is not coherent, START leaves its buffer to be invalidated (R93). -/
theorem runBegun_stale {s : State} (incoherent : s.params.coherent = false) :
    (runBegun s).host.stale = bufferSpan s :: s.host.stale := by
  have hs : ((s.setWait true).setStatus clearedStatus).params.coherent = false := incoherent
  simp only [runBegun, beginRun, hs]
  rfl

/-- Settles O23: the buffer is on the stale record, and its bytes are memory, off the window and off every device. -/
theorem runLeavesBufferStale : Obligations.RunLeavesBufferStale := by
  intro s t u a rest start incoherent hexec hlow hhigh hparams hstale hn
  obtain ⟨window, device⟩ := clear_of_startRefusal_none start.buffer
  obtain rfl : runBegun s = t := by simpa [exec_start_of_startable start] using hexec
  have htarget : accessTarget (taken u rest).params a .byte = .memory :=
    accessTarget_byte_outside fun hin => window ⟨a.toNat, hlow, hhigh, hparams ▸ hin⟩
  rw [step_of_nextOp hn, hostOp, hostRead, htarget]
  refine hostLoad_stale (s := taken u rest) ?_ (hparams ▸ incoherent) ?_
  · exact spanMeetsAny_address_eq_false fun d hd hin => device ⟨d, hparams ▸ hd, a.toNat, hlow, hhigh, hin⟩
  · rw [spanMeetsAny_address]
    refine ⟨bufferSpan s, ?_, hlow, hhigh⟩
    rw [show (taken u rest).host.stale = _ from hstale, runBegun_stale incoherent]
    exact List.mem_cons_self

/-! ### Faults -/

theorem writeCmd_not_fault (w : Word) (s : State) (r : Fault) : writeCmd w s ≠ .fault r := by
  unfold writeCmd
  split
  · next i _ =>
    have hexec := exec_not_fault i s
    cases ho : exec i s with
    | next => simp [completeCommand]
    | refused => simp [completeCommand]
    | fault q => exact absurd ho (hexec q)
  · simp [completeCommand]

theorem hostRead_not_fault (addr : Word) (size : AccessSize) (s : State) (r : Fault) :
    hostRead addr size s ≠ .fault r := by
  unfold hostRead hostLoad
  split
  · simp
  · simp
  · split_ifs <;> simp

theorem hostWrite_not_fault (addr : Word) (size : AccessSize) (data : Word) (s : State) (r : Fault) :
    hostWrite addr size data s ≠ .fault r := by
  unfold hostWrite hostStore
  split
  · exact writeCmd_not_fault data s r
  · simp
  · simp
  · split_ifs <;> simp

theorem hostOp_not_fault (op : HostOp) (s : State) (r : Fault) : hostOp op s ≠ .fault r := by
  cases op with
  | read addr size => exact hostRead_not_fault addr size s r
  | write addr size data => exact hostWrite_not_fault addr size data s r
  | clean range => simp [hostOp, hostClean]
  | invalidate range =>
    rw [hostOp, hostInvalidate]
    split_ifs <;> simp

theorem agentStep_not_fault (m : Bool) (s : State) (r : Fault) : agentStep m s ≠ .fault r := by
  unfold agentStep hostStep
  split
  · simp
  split
  · simp
  split
  · simp
  · exact hostOp_not_fault _ _ r

theorem inputStep_not_fault (s : State) (r : Fault) : inputStep s ≠ .fault r := by
  unfold inputStep
  split
  · exact agentStep_not_fault _ _ r
  · exact agentStep_not_fault _ _ r
  · exact agentStep_not_fault _ _ r
  · simp

/-- A step faults only where a run's buffer passes the top of memory (log 18). -/
theorem step_not_fault {s : State} (h : runInMemory s = true) (r : Fault) : step s ≠ .fault r := by
  unfold step systemStep
  split
  · simp
  · rw [if_neg (by simp [h])]
    exact inputStep_not_fault s r

/-- In the invariant a run's buffer is in memory (R277). -/
theorem runInMemory_of_inv {s : State} (h : Inv s) : runInMemory s = true := by
  unfold runInMemory
  split
  · rfl
  · next run => exact decide_eq_true (h.run run).range

/-- Settles O59: the one fault is a run outside memory. -/
theorem invariantStatesDoNotFault : Obligations.InvariantStatesDoNotFault :=
  fun _ r h => step_not_fault (runInMemory_of_inv h) r

end Sys2Proof.Machine
end

section
/-! PROOFS. Command words (30_encoding.md R111 to R113): a word is its two fields, so the decoder and the encoder are inverse. -/

namespace Sys2Proof

/-- A command word is its MBZ field above its OP field (R111). -/
theorem cmdMbz_append_cmdOp (w : Word) : cmdMbz w ++ cmdOp w = w :=
  (BitVec.extractLsb'_append_extractLsb'_eq_extractLsb' rfl).trans BitVec.extractLsb'_eq_self

@[simp] theorem cmdMbz_encode (i : Instr) : cmdMbz (encode i) = 0 := by
  cases i <;> decide

@[simp] theorem cmdOp_encode (i : Instr) : cmdOp (encode i) = opOf i := by
  cases i <;> decide

/-- What the decoder has read where it answers a command: a zero MBZ and the command's OP (R112). -/
theorem decode_eq_ok_iff {w : Word} {i : Instr} : decode w = .ok i ↔ cmdMbz w = 0 ∧ cmdOp w = opOf i := by
  by_cases mbz : cmdMbz w = 0#28
  case neg => simp [decode, mbz]
  by_cases nop : cmdOp w = 0#4
  case pos => cases i <;> simp [decode, mbz, nop, opOf]
  by_cases start : cmdOp w = 1#4
  case pos => cases i <;> simp [decode, mbz, start, opOf]
  case neg => cases i <;> simp [decode, mbz, nop, start, opOf]

@[simp] theorem decode_encode (i : Instr) : decode (encode i) = .ok i :=
  decode_eq_ok_iff.mpr ⟨cmdMbz_encode i, cmdOp_encode i⟩

/-- The decoder answers a command at the command's own word and at no other (R118). -/
theorem encode_eq_of_decode {w : Word} {i : Instr} (h : decode w = .ok i) : encode i = w := by
  obtain ⟨mbz, op⟩ := decode_eq_ok_iff.mp h
  rw [← cmdMbz_append_cmdOp w, mbz, op]
  rfl

/-- A word that is no command's is ILLEGAL (R113). -/
theorem decode_eq_error_of_ne_encode {w : Word} (h : ∀ i, w ≠ encode i) : ∃ e, decode w = .error e := by
  cases hd : decode w with
  | error e => exact ⟨e, rfl⟩
  | ok i => exact absurd (encode_eq_of_decode hd).symm (h i)

/-- Settles O1: each word's two fields are computed. -/
theorem commandWordsDecode : Obligations.CommandWordsDecode := by
  unfold Obligations.CommandWordsDecode
  decide

/-- Settles O2: the words of NOP and START are their encodings, and any other word is no command's. -/
theorem decodeIsTotalAndThreeWay : Obligations.DecodeIsTotalAndThreeWay := by
  intro w
  refine ⟨?_, ?_, fun hnop hstart => decode_eq_error_of_ne_encode fun i => ?_⟩
  · rintro rfl
    exact decode_encode .nop
  · rintro rfl
    exact decode_encode .start
  · cases i with
    | nop => exact hnop
    | start => exact hstart

/-- Settles O3: the decoder reads back what the encoder wrote, and no other word. -/
theorem decodeAndEncodeAgree : Obligations.DecodeAndEncodeAgree :=
  ⟨decode_encode, fun _ _ => encode_eq_of_decode⟩

end Sys2Proof
end

section
/-! PROOFS. The host-side factor encoder (40_factor_encoder.md R140 to R142): the rounded value is always in [0, 128], so the
last clamp changes nothing and the encoder's only error is that of the rounding. -/

namespace Sys2Proof.Machine

theorem le_clampRat {x lo hi : Rat} (h : lo ≤ hi) : lo ≤ clampRat x lo hi :=
  le_min h (le_max_left lo x)

theorem clampRat_le (x lo hi : Rat) : clampRat x lo hi ≤ hi :=
  min_le_left hi _

theorem clampRat_of_le_of_le {x lo hi : Rat} (hlo : lo ≤ x) (hhi : x ≤ hi) : clampRat x lo hi = x := by
  rw [clampRat, max_eq_right hlo, min_eq_right hhi]

theorem clampRat_of_le_lo {x lo hi : Rat} (h : lo ≤ hi) (hx : x ≤ lo) : clampRat x lo hi = lo := by
  rw [clampRat, max_eq_left hx, min_eq_right h]

theorem clampRat_of_hi_le {x lo hi : Rat} (hx : hi ≤ x) : clampRat x lo hi = hi :=
  min_eq_left (hx.trans (le_max_right lo x))

theorem clampNat_le (x : Int) (hi : Nat) : clampNat x hi ≤ hi :=
  Int.toNat_le.mpr (min_le_left _ _)

theorem clampNat_of_nonneg_of_le {x : Int} {hi : Nat} (h0 : 0 ≤ x) (hx : x ≤ hi) : (clampNat x hi : Int) = x := by
  rw [clampNat, max_eq_right h0, min_eq_right hx, Int.toNat_of_nonneg h0]

@[simp] theorem roundHalfUp_natCast (n : Nat) : roundHalfUp n = n := by
  rw [roundHalfUp, Int.floor_natCast_add]
  norm_num

theorem roundHalfUp_mono {x y : Rat} (h : x ≤ y) : roundHalfUp x ≤ roundHalfUp y :=
  Int.floor_mono (add_le_add_left h _)

/-- The error of rounding to the nearest integer (R16). -/
theorem abs_roundHalfUp_sub_le (x : Rat) : |(roundHalfUp x : Rat) - x| ≤ 1 / 2 := by
  have low : x + 1 / 2 < roundHalfUp x + 1 := Int.lt_floor_add_one (x + 1 / 2)
  have high : (roundHalfUp x : Rat) ≤ x + 1 / 2 := Int.floor_le (x + 1 / 2)
  rw [abs_le]
  constructor <;> linarith

/-- The bounds are integers, so rounding keeps to them and the clamp after it never changes the value (R140). -/
theorem clampNat_roundHalfUp {x : Rat} {n : Nat} (h0 : 0 ≤ x) (hn : x ≤ n) :
    (clampNat (roundHalfUp x) n : Int) = roundHalfUp x := by
  have low : ((0 : Nat) : Int) ≤ roundHalfUp x := by
    rw [← roundHalfUp_natCast]
    exact roundHalfUp_mono (by exact_mod_cast h0)
  have high : roundHalfUp x ≤ n := by
    rw [← roundHalfUp_natCast]
    exact roundHalfUp_mono hn
  exact clampNat_of_nonneg_of_le low high

/-- `encode` of a number is its clamped, scaled and rounded value (R140). -/
theorem encodeFactor_real (f : Rat) : (encodeFactor (.real f) : Int) = roundHalfUp (clampRat f 0 2 * 64) := by
  have low : 0 ≤ clampRat f 0 2 := le_clampRat (by norm_num)
  have high : clampRat f 0 2 ≤ 2 := clampRat_le f 0 2
  refine clampNat_roundHalfUp (by linarith) ?_
  push_cast
  linarith

/-- A factor whose clamped value is n / 64 is encoded exactly (R142). -/
theorem encodeFactor_of_clampRat {f : Rat} {n : Nat} (h : clampRat f 0 2 = n / 64) : encodeFactor (.real f) = n := by
  have scaled : clampRat f 0 2 * 64 = n := by rw [h, div_mul_cancel₀ _ (by norm_num)]
  have encoded := encodeFactor_real f
  rw [scaled, roundHalfUp_natCast] at encoded
  exact_mod_cast encoded

theorem encodeFactor_le (f : Factor) : encodeFactor f ≤ 128 := by
  cases f with
  | nan => exact Nat.zero_le _
  | real f => exact clampNat_le _ _

theorem encodeFactor_of_nonpos {f : Rat} (h : f ≤ 0) : encodeFactor (.real f) = 0 :=
  encodeFactor_of_clampRat ((clampRat_of_le_lo (by norm_num) h).trans (by norm_num))

theorem encodeFactor_of_two_le {f : Rat} (h : 2 ≤ f) : encodeFactor (.real f) = 128 :=
  encodeFactor_of_clampRat ((clampRat_of_hi_le h).trans (by norm_num))

theorem encodeFactor_one : encodeFactor (.real 1) = 64 :=
  encodeFactor_of_clampRat ((clampRat_of_le_of_le (by norm_num) (by norm_num)).trans (by norm_num))

/-- Settles O48: outside [0, 2] and at the source's values the clamped factor is a multiple of 1/64; inside, the encoder is its
rounding. -/
theorem encodeClampsAndRounds : Obligations.EncodeClampsAndRounds := by
  refine ⟨rfl, encodeFactor_one, encodeFactor_of_two_le le_rfl, encodeFactor_of_nonpos le_rfl, fun f =>
    ⟨encodeFactor_le _, fun h => encodeFactor_of_nonpos h.le, fun h => encodeFactor_of_two_le h.le, fun h0 h2 => ?_⟩⟩
  rw [encodeFactor_real, clampRat_of_le_of_le h0 h2]
  rfl

/-- Settles O49: the rounding's error of one half, scaled by 1/64. -/
theorem encodeIsWithinHalfAStep : Obligations.EncodeIsWithinHalfAStep := by
  intro f
  have encoded : (encodeFactor (.real f) : Rat) = roundHalfUp (clampRat f 0 2 * 64) := by
    exact_mod_cast encodeFactor_real f
  have error := abs_roundHalfUp_sub_le (clampRat f 0 2 * 64)
  rw [← encoded, abs_le] at error
  rw [abs_le]
  constructor <;> linarith

end Sys2Proof.Machine
end

section
/-! SUPPORT. The lane arithmetic on naturals (42_lane_datapath.md R181 to R187): the two saturations of `gain` are one clamp
to 255 of the product's integer part. -/

namespace Sys2Proof.Machine

/-- A product of two bytes fits in 16 bits (R181). -/
@[simp] theorem widenMultiply_toNat (v f : Byte) : (widenMultiply v f).toNat = v.toNat * f.toNat := by
  have hv := v.isLt
  have hf := f.isLt
  have hprod : v.toNat * f.toNat < 2 ^ 16 := (Nat.mul_lt_mul'' hv hf).trans_le (by norm_num)
  rw [widenMultiply, BitVec.toNat_mul, BitVec.toNat_setWidth_of_le (by norm_num), BitVec.toNat_setWidth_of_le (by norm_num),
    Nat.mod_eq_of_lt hprod]

@[simp] theorem saturatingDouble_toNat (w : Half) : (saturatingDouble w).toNat = min 65535 (2 * w.toNat) := by
  rw [saturatingDouble, BitVec.toNat_ofNat, Nat.mod_eq_of_lt (by omega)]

@[simp] theorem narrowHighByte_toNat (w : Half) : (narrowHighByte w).toNat = w.toNat / 256 := by
  have hw := w.isLt
  rw [narrowHighByte, BitVec.extractLsb'_toNat, Nat.shiftRight_eq_div_pow]
  omega

/-- `gain` is the integer part of v * F / 64, saturated at 255 (R185). -/
theorem gain_toNat (v f : Byte) : (gain v f).toNat = min 255 (v.toNat * f.toNat / 64) := by
  simp only [gain, wideGain, narrowHighByte_toNat, saturatingDouble_toNat, widenMultiply_toNat]
  omega

/-- The factor 64 is the identity (R168, R187). -/
@[simp] theorem gain_identity (v : Byte) : gain v 64 = v := by
  refine BitVec.eq_of_toNat_eq ?_
  have hv := v.isLt
  rw [gain_toNat, show (64 : Byte).toNat = 64 from rfl]
  omega

end Sys2Proof.Machine
end

section
/-! PROOFS. A run with every factor 64 (41_scalar_reference.md R168): no batch of either strategy changes a byte. -/

namespace Sys2Proof.Machine

open Sys2Proof.Safety

variable {s : State}

theorem BatchesMade.runEnd_eq {n : Nat} {u : State} (made : BatchesMade s n u) : runEnd u = runEnd s := by
  simp only [runEnd, pixelCount, bufferLen, made.params, made.csr]

/-- Before a run's last batch is made, seq.pos is below the loop bound (R351). -/
theorem BatchesMade.more {n : Nat} {u : State} (made : BatchesMade s n u) (build : legalBuild s.params = true)
    (start : s.seq.pos = 0) (hn : n < batchCount s) : u.seq.pos < runEnd u := by
  have hlast : batchCount s * batchAdvance s.params < runEnd s + batchAdvance s.params :=
    ceilDiv_mul_lt (runEnd s) (batchAdvance_pos build)
  have hle := Nat.mul_le_mul_right (batchAdvance s.params) (Nat.succ_le_of_lt hn)
  rw [Nat.succ_mul] at hle
  rw [made.runEnd_eq, made.pos, start]
  omega

/-- What holds as a quiet run begins, and is kept by each batch it makes below the loop bound, holds where its last batch
leaves it. -/
theorem QuietRun.iterate_induction (h : QuietRun s) (start : s.seq.pos = 0) {P : State → Prop} (begun : P s)
    (batch : ∀ u, QuietRun u → u.seq.pos < runEnd u → P u → P (Machine.runBatch u)) :
    P (Machine.runBatch^[batchCount s] s) := by
  have upTo (n : Nat) (hn : n ≤ batchCount s) : P (Machine.runBatch^[n] s) := by
    induction n with
    | zero => exact begun
    | succ n ih =>
      have made := h.iterate n
      rw [Function.iterate_succ_apply']
      exact batch _ made.quiet (made.more h.build start hn) (ih (Nat.le_of_succ_le hn))
  exact upTo _ le_rfl

/-- Every factor a batch at `s` applies is 64: the three channels', and under INTERLEAVED each lane's of FT. -/
structure IdentityFactors (s : State) : Prop where
  channels : ∀ c, c < 3 → channelFactor s c = 64
  table : s.params.strategy = .interleaved → ∀ i, i < s.params.lanes → s.data.ft.getD i 0 = 64

theorem IdentityFactors.runBatch (h : IdentityFactors s) : IdentityFactors (runBatch s) where
  channels := by simpa [channelFactor] using h.channels
  table := by simpa using h.table

/-- A batch with every factor 64 leaves each byte as it was, under either strategy. -/
theorem runBatch_read_of_identity (quiet : QuietRun s) (wf : s.mem.wf = true) (more : s.seq.pos < runEnd s)
    (identity : IdentityFactors s) (a : Nat) : (runBatch s).mem.read a = s.mem.read a := by
  unfold runEnd at more
  unfold runBatch
  cases hs : s.params.strategy with
  | planar =>
    refine (planarBatch_read wf quiet.range (by simpa [hs] using more) a).trans ?_
    rw [identity.channels _ (Nat.mod_lt _ (by decide)), gain_identity, ite_self]
  | interleaved =>
    refine (interleavedBatch_read wf quiet.range (by simpa [hs] using more) (quiet.table hs) a).trans ?_
    split
    · next active =>
      have lane : a - interleavedBase s < s.params.lanes := by
        have := interleavedActive_le s
        omega
      rw [identity.table hs _ lane, gain_identity]
    · rfl

theorem runBatch_mem_of_identity (quiet : QuietRun s) (wf : s.mem.wf = true) (more : s.seq.pos < runEnd s)
    (identity : IdentityFactors s) : (runBatch s).mem = s.mem :=
  Memory.ext (runBatch_wf wf quiet.range more) wf (runBatch_read_of_identity quiet wf more identity)

/-- The fields of the word 0x00404040. -/
theorem factorField_identity {c : Nat} (hc : c < 3) : factorField 0x00404040#32 c = 64 := by
  interval_cases c <;> decide

/-- START under FACTOR = 0x00404040 builds a table of 64s: the three factors, and the padding past the stride (R241). -/
theorem identityFactors_runBegun (factor : s.csr.factor = 0x00404040#32) : IdentityFactors (runBegun s) where
  channels c hc := by
    rw [← factorField_identity hc, ← factor]
    rfl
  table interleaved i hi := by
    have hs : s.params.strategy = .interleaved := interleaved
    have lane : i < s.params.lanes := hi
    have table : (runBegun s).data.ft = factorTable s.params.lanes s.csr.factor := by simp [runBegun, beginRun, hs]
    rw [table, factorTable_getD lane, factor, factorField_identity (Nat.mod_lt i (by decide)), ite_self]

/-- Settles O44: memory, and that the factors are 64, are kept from batch to batch. -/
theorem identityFactorsLeaveMemory : Obligations.IdentityFactorsLeaveMemory := by
  intro s h factor wf inputs
  have quiet := quietRun_of_startable h inputs
  have kept : IdentityFactors (runBatch^[batchCount s] (runBegun s)) ∧
      (runBatch^[batchCount s] (runBegun s)).mem = s.mem :=
    quiet.iterate_induction (P := fun u => IdentityFactors u ∧ u.mem = s.mem) rfl
      ⟨identityFactors_runBegun factor, rfl⟩ fun u hu more ⟨identity, mem⟩ =>
        ⟨identity.runBatch, (runBatch_mem_of_identity hu (mem ▸ wf) more identity).trans mem⟩
  refine ⟨_, _, exec_start_of_startable h, run_to_end_of_startable h inputs, kept.2, ?_⟩
  rw [finishRun_csr, (quiet.iterate _).csr]
  exact (by decide : withDone clearedStatus = 0x00000001#32)

end Sys2Proof.Machine
end

section
/-! PROOFS. The oracle against the hardware (41_scalar_reference.md R164, R165): both clamp to 255, the oracle the rounded
product and `gain` the truncated one. -/

namespace Sys2Proof.Machine

@[simp] theorem clampNat_natCast (n hi : Nat) : clampNat (n : Int) hi = min hi n := by
  unfold clampNat
  omega

/-- Rounding a multiple of 1/64, halves up. -/
theorem roundHalfUp_div_64 (n : Nat) : roundHalfUp ((n : Rat) / 64) = ((n + 32) / 64 : Nat) := by
  have hsum : (n : Rat) / 64 + 1 / 2 = ((n + 32 : Nat) : Rat) / (64 : Nat) := by
    push_cast
    ring
  rw [roundHalfUp, hsum, Rat.floor_natCast_div_natCast]
  rfl

/-- In [0, 2] the oracle's clamp of the factor changes nothing (R160). -/
theorem oracle_of_le_of_le {v : Byte} {f : Rat} (h0 : 0 ≤ f) (h2 : f ≤ 2) :
    oracle v f = clampNat (roundHalfUp (v.toNat * f)) 255 := by
  rw [oracle, clampRat_of_le_of_le h0 h2]

/-- The oracle at a representable factor, on naturals. -/
theorem oracle_div_64 {v f : Byte} (hf : f.toNat ≤ 128) :
    oracle v ((f.toNat : Rat) / 64) = min 255 ((v.toNat * f.toNat + 32) / 64) := by
  have high : (f.toNat : Rat) ≤ 128 := by exact_mod_cast hf
  have product : (v.toNat : Rat) * (f.toNat / 64) = ((v.toNat * f.toNat : Nat) : Rat) / 64 := by
    push_cast
    ring
  rw [oracle_of_le_of_le (by positivity) (by linarith), product, roundHalfUp_div_64, clampNat_natCast]

/-- Settles O50: rounding exceeds truncation exactly from the fraction one half on, unless both are clamped. -/
theorem oracleWithinOneAtRepresentableFactors : Obligations.OracleWithinOneAtRepresentableFactors := by
  intro v f hf
  rw [oracle_div_64 hf, gain_toNat]
  split <;> omega

theorem encodedByte_toNat (f : Factor) : (encodedByte f).toNat = encodeFactor f := by
  have := encodeFactor_le f
  rw [encodedByte, BitVec.toNat_ofNat, Nat.mod_eq_of_lt (by omega)]

/-- The oracle's rounded product is within 255/128 + 1/2 of v * F / 64: the encoder's error of 1/128 on a byte, and the
rounding's. -/
theorem abs_round_sub_encoded_le (v : Byte) {f : Rat} (h0 : 0 ≤ f) (h2 : f ≤ 2) :
    |128 * roundHalfUp (v.toNat * f) - 2 * (v.toNat * encodeFactor (.real f) : Nat)| ≤ 319 := by
  have rounding := abs_roundHalfUp_sub_le (v.toNat * f)
  have encoding := encodeIsWithinHalfAStep f
  rw [clampRat_of_le_of_le h0 h2] at encoding
  have byte : (v.toNat : Rat) ≤ 255 := by exact_mod_cast Nat.le_of_lt_succ v.isLt
  have scaled : |(v.toNat : Rat) * (encodeFactor (.real f) / 64 - f)| ≤ 255 * (1 / 128) := by
    rw [abs_mul, Nat.abs_cast]
    exact mul_le_mul byte encoding (abs_nonneg _) (by norm_num)
  rw [mul_sub] at scaled
  have bound : |128 * (roundHalfUp (v.toNat * f) : Rat) - 2 * (v.toNat * encodeFactor (.real f))| ≤ 319 := by
    rw [abs_le] at rounding scaled ⊢
    constructor <;> linarith
  exact_mod_cast bound

/-- Settles O51: truncation and the clamp to 255 turn the error of 319/128 into at most 2 down and 3 up; the two ends are
evaluated. -/
theorem oracleBoundAtAnyFactor : Obligations.OracleBoundAtAnyFactor := by
  refine ⟨fun v f h0 h2 => ?_, by decide +kernel, by decide +kernel⟩
  have error := abs_round_sub_encoded_le v h0 h2
  rw [abs_le] at error
  rw [gain_toNat, encodedByte_toNat, oracle_of_le_of_le h0 h2, clampNat]
  omega

end Sys2Proof.Machine
end

section
/-! PROOFS. The lane datapath (42_lane_datapath.md): its arithmetic (R181 to R187) over the product v * F as one natural, and
its movement of bytes (R188, R189, R193) lane by lane. -/

namespace Sys2Proof.Machine

/-! ### Lane arithmetic -/

/-- Settles O24: the three laws of the primitives on naturals. -/
theorem lanePrimitivesExact : Obligations.LanePrimitivesExact :=
  ⟨widenMultiply_toNat, saturatingDouble_toNat, narrowHighByte_toNat⟩

/-- The two saturating doublings are one saturating product by 4 (R184): where the first saturates, so does the second. -/
@[simp] theorem wideGain_toNat (v f : Byte) : (wideGain v f).toNat = min 65535 (4 * (v.toNat * f.toNat)) := by
  rw [wideGain, saturatingDouble_toNat, saturatingDouble_toNat, widenMultiply_toNat]
  omega

/-- Settles O25: the first form is the sequence itself, the second narrows `wideGain_toNat`, the third is `gain_toNat`. -/
theorem gainClosedForm : Obligations.GainClosedForm := by
  intro v f
  refine ⟨?_, ?_, gain_toNat v f⟩
  · rw [gain, wideGain, narrowHighByte_toNat, saturatingDouble_toNat, saturatingDouble_toNat, widenMultiply_toNat,
      Nat.mul_comm _ 2, Nat.mul_assoc 2 v.toNat]
  · rw [gain, narrowHighByte_toNat, wideGain_toNat, Nat.mul_assoc]

/-- Settles O26: the first doubling is at most 65280; four times the product, which is never 65535 itself, is cut exactly
when it reaches 65536. -/
theorem onlySecondDoublingSaturates : Obligations.OnlySecondDoublingSaturates := by
  intro v f hf
  have product : v.toNat * f.toNat ≤ 255 * 128 := Nat.mul_le_mul (Nat.le_of_lt_succ v.isLt) hf
  constructor
  · rw [saturatingDouble_toNat, widenMultiply_toNat]
    omega
  · rw [wideGain_toNat]
    omega

/-! ### The laws of gain -/

@[simp] theorem gain_zero_right (v : Byte) : gain v 0 = 0 :=
  BitVec.eq_of_toNat_eq (by simp [gain_toNat])

@[simp] theorem gain_zero_left (f : Byte) : gain 0 f = 0 :=
  BitVec.eq_of_toNat_eq (by simp [gain_toNat])

/-- `gain` saturates from the product 255 * 64 on (R187 (c)). -/
theorem gain_eq_max_iff (v f : Byte) : gain v f = 255 ↔ 16320 ≤ v.toNat * f.toNat := by
  rw [← BitVec.toNat_inj, gain_toNat, show (255 : Byte).toNat = 255 from rfl]
  omega

/-- `gain` is monotone in both operands at once (R187 (d)). -/
theorem gain_mono {v v' f f' : Byte} (hv : v.toNat ≤ v'.toNat) (hf : f.toNat ≤ f'.toNat) :
    (gain v f).toNat ≤ (gain v' f').toNat := by
  rw [gain_toNat, gain_toNat]
  exact min_le_min_left 255 (Nat.div_le_div_right (Nat.mul_le_mul hv hf))

/-- The greatest factor doubles and saturates (R187 (e)). -/
theorem gain_greatest_factor (v : Byte) : (gain v 128).toNat = min 255 (2 * v.toNat) := by
  rw [gain_toNat, show (128 : Byte).toNat = 128 from rfl]
  omega

/-- `gain` never exceeds the exact product (R187 (f)). -/
theorem mul_gain_le (v f : Byte) : 64 * (gain v f).toNat ≤ v.toNat * f.toNat := by
  rw [gain_toNat]
  omega

/-- Settles O27, law by law. -/
theorem gainLaws : Obligations.GainLaws := fun v _ f _ =>
  ⟨gain_identity v, gain_zero_right v, gain_zero_left f, gain_eq_max_iff v f, gain_mono, gain_greatest_factor v,
    mul_gain_le v f⟩

/-! ### Lane movement -/

/-- `interleave3_getD` with the three vectors given by their channel. -/
theorem interleave3_getD_channel {vec : Nat → List Byte} {a k : Nat} (h : k < 3 * a) :
    (interleave3 (vec 0) (vec 1) (vec 2) a).getD k 0 = (vec (k % 3)).getD (k / 3) 0 := by
  rw [interleave3_getD h]
  obtain hc | hc | hc : k % 3 = 0 ∨ k % 3 = 1 ∨ k % 3 = 2 := by omega
  all_goals simp [hc]

/-- Settles O28: byte `k` comes back from lane `k / 3` of channel `k % 3`, an active lane, so no `fill` is seen. -/
theorem interleaveInvertsDeinterleave : Obligations.InterleaveInvertsDeinterleave := by
  intro bytes n a fill length active
  refine List.ext_getElem (by rw [interleave3_length, length]) fun k hk hbytes => ?_
  have lane : k / 3 < n := by omega
  rw [← List.getD_eq_getElem _ 0 hk,
    interleave3_getD_channel (vec := fun c => deinterleave bytes c n (fill c)) (length ▸ hbytes),
    deinterleave_getD lane, Nat.div_add_mod, List.getD_eq_getElem _ _ hbytes]

/-! ### The masked store -/

/-- Settles O29: the store writes the first `a` lanes as bytes from `base`, and `read_writeBytes` accounts for every
address. -/
theorem maskedStoreWritesActiveLanesOnly : Obligations.MaskedStoreWritesActiveLanesOnly := by
  intro m base a v wf lanes range x
  have written : (v.take a).length = a := List.length_take_of_le lanes
  rw [storeBytes, Memory.read_writeBytes wf (written.symm ▸ range), written]
  split
  · next stored => rw [List.getD_eq_getElem?_getD, List.getElem?_take_of_lt (by omega), ← List.getD_eq_getElem?_getD]
  · rfl

end Sys2Proof.Machine
end

section
/-! SUPPORT. The image of a run half done (R216, R250): AdjustMap of the buffer's first bytes, which a batch of either
strategy carries on to the bytes it finishes. -/

namespace Sys2Proof.Machine

open Sys2Proof.Safety

variable {s : State}

/-! ### AdjustMap of the first bytes of a buffer -/

theorem adjustMap_zero (m : Memory) (base : Nat) (factor : Word) (a : Nat) :
    adjustMap m base 0 factor a = m.read a :=
  if_neg (by omega)

/-- The AdjustMap of `d'` bytes is that of the first `d` with the bytes from `d` on gained. -/
theorem adjustMap_extend (m : Memory) (base : Nat) (factor : Word) {d d' : Nat} (h : d ≤ d') (a : Nat) :
    adjustMap m base d' factor a =
      if base + d ≤ a ∧ a < base + d' then
        gain (adjustMap m base d factor a) (factorField factor ((a - base) % 3))
      else adjustMap m base d factor a := by
  by_cases fresh : base + d ≤ a ∧ a < base + d'
  · have old : adjustMap m base d factor a = m.read a := if_neg (by omega)
    rw [if_pos fresh, old, adjustMap, if_pos (by omega), adjustedByte, Nat.add_sub_cancel' (by omega)]
  · rw [if_neg fresh]
    exact if_congr (by omega) rfl rfl

/-! ### The bytes a batch gains -/

theorem runBatch_of_planar (h : s.params.strategy = .planar) : runBatch s = planarBatch s := by
  simp only [runBatch, h]

theorem runBatch_of_interleaved (h : s.params.strategy = .interleaved) : runBatch s = interleavedBatch s := by
  simp only [runBatch, h]

theorem runEnd_of_planar (h : s.params.strategy = .planar) : runEnd s = bufferLen s / 3 := by
  simp only [runEnd, h, pixelCount]

theorem runEnd_of_interleaved (h : s.params.strategy = .interleaved) : runEnd s = bufferLen s := by
  simp only [runEnd, h]

theorem doneBytes_of_planar (h : s.params.strategy = .planar) : doneBytes s = min (bufferLen s) (3 * s.seq.pos) := by
  simp only [doneBytes, h]

theorem doneBytes_of_interleaved (h : s.params.strategy = .interleaved) :
    doneBytes s = min (bufferLen s) s.seq.pos := by
  simp only [doneBytes, h]

theorem doneBytes_le_runBatch (s : State) : doneBytes s ≤ doneBytes (runBatch s) := by
  simp only [doneBytes, runBatch_params, runBatch_bufferLen, runBatch_pos]
  split <;> omega

/-- An interleaved iteration against the built table (R245 to R249): at an offset of whole pixels each byte below the
stride takes its channel's gain, and a byte past it meets the identity. -/
theorem interleavedBatch_read_of_table (wf : s.mem.wf = true) (range : imageBase s + bufferLen s ≤ 2 ^ 32)
    (more : s.seq.pos < bufferLen s) (table : s.data.ft = factorTable s.params.lanes s.csr.factor)
    (pixels : 3 ∣ s.seq.pos) (a : Nat) :
    (interleavedBatch s).mem.read a =
      if interleavedBase s ≤ a ∧
          a < interleavedBase s + min (alignedStride s.params.lanes) (bufferLen s - s.seq.pos) then
        gain (s.mem.read a) (channelFactor s ((a - imageBase s) % 3))
      else s.mem.read a := by
  have stride := alignedStride_le s.params.lanes
  have active : interleavedActive s = min s.params.lanes (bufferLen s - s.seq.pos) := rfl
  rw [interleavedBatch_read wf range more (by rw [table, factorTable_length])]
  by_cases below : interleavedBase s ≤ a ∧
      a < interleavedBase s + min (alignedStride s.params.lanes) (bufferLen s - s.seq.pos)
  · have channel : (a - interleavedBase s) % 3 = (a - imageBase s) % 3 := by
      unfold interleavedBase at below ⊢
      omega
    rw [if_pos below, if_pos (by omega), table, factorTable_getD (by omega), if_pos (by omega), channel]
    rfl
  · rw [if_neg below]
    split
    · next straddling => rw [table, factorTable_getD (by omega), if_neg (by omega), gain_identity]
    · rfl

/-- seq.pos is a whole number of pixels' bytes under INTERLEAVED (R45, R240). -/
theorem pixels_of_runInv (h : RunInv s) (interleaved : s.params.strategy = .interleaved) : 3 ∣ s.seq.pos := by
  obtain ⟨advance, _, _⟩ := batch_of_interleaved interleaved
  exact (three_dvd_alignedStride s.params.lanes).trans (advance ▸ h.aligned)

/-- A batch of a run in its invariant gains the bytes it finishes and leaves every other byte as it was. -/
theorem runBatch_read_of_runInv (h : RunInv s) (wf : s.mem.wf = true) (more : s.seq.pos < runEnd s) (a : Nat) :
    (runBatch s).mem.read a =
      if imageBase s + doneBytes s ≤ a ∧ a < imageBase s + doneBytes (runBatch s) then
        gain (s.mem.read a) (channelFactor s ((a - imageBase s) % 3))
      else s.mem.read a := by
  cases strategy : s.params.strategy with
  | planar =>
    rw [runEnd_of_planar strategy] at more
    have whole := h.shape
    obtain ⟨advance, _, _⟩ := batch_of_planar strategy
    rw [doneBytes_of_planar strategy, doneBytes_of_planar (by simpa using strategy), runBatch_bufferLen, runBatch_pos,
      advance, runBatch_of_planar strategy, planarBatch_read wf h.range more]
    refine if_congr ?_ rfl rfl
    simp only [planarBase, planarActive, activeCount, pixelCount]
    omega
  | interleaved =>
    rw [runEnd_of_interleaved strategy] at more
    obtain ⟨advance, _, _⟩ := batch_of_interleaved strategy
    rw [doneBytes_of_interleaved strategy, doneBytes_of_interleaved (by simpa using strategy), runBatch_bufferLen,
      runBatch_pos, advance, runBatch_of_interleaved strategy,
      interleavedBatch_read_of_table wf h.range more (h.table strategy) (pixels_of_runInv h strategy)]
    refine if_congr ?_ rfl rfl
    simp only [interleavedBase]
    omega

/-! ### The run's invariant -/

/-- A batch keeps the run's invariant: the image is done as far as seq.pos says (R216, R250). -/
theorem runInv_runBatch (h : RunInv s) (wf : s.mem.wf = true) (more : s.seq.pos < runEnd s) : RunInv (runBatch s) where
  shape := by simpa [pixelProduct] using h.shape
  range := by simpa using h.range
  aligned := by simpa using h.aligned
  table := by simpa using h.table
  image a := by
    rw [runBatch_read_of_runInv h wf more, runBatch_startMem, runBatch_imageBase, runBatch_csr,
      adjustMap_extend _ _ _ (doneBytes_le_runBatch s), h.image a]
    rfl

/-- A run begins with its table built and no byte done (R278). -/
theorem runInv_beginRun (shape : bufferLen s = 3 * pixelProduct s) (range : imageBase s + bufferLen s ≤ 2 ^ 32) :
    RunInv (beginRun s) where
  shape := shape
  range := range
  aligned := dvd_zero _
  table interleaved := by
    have strategy : s.params.strategy = .interleaved := interleaved
    simp [beginRun, strategy]
  image a := by
    have noneDone : doneBytes (beginRun s) = 0 := by
      unfold doneBytes
      cases (beginRun s).params.strategy <;> simp
    rw [noneDone, adjustMap_zero]
    rfl

/-- Where the loop test ends a run, every byte of the buffer is done (R216, R250). -/
theorem doneBytes_of_ended (h : RunInv s) (ended : runEnd s ≤ s.seq.pos) : doneBytes s = bufferLen s := by
  have whole := h.shape
  cases strategy : s.params.strategy with
  | planar =>
    rw [runEnd_of_planar strategy] at ended
    rw [doneBytes_of_planar strategy]
    omega
  | interleaved =>
    rw [runEnd_of_interleaved strategy] at ended
    rw [doneBytes_of_interleaved strategy]
    omega

end Sys2Proof.Machine
end

section
/-! PROOFS. The whole invariant is kept by every step: the lanes' counts and, in a run, the image half done. -/

namespace Sys2Proof.Machine

open Sys2Proof.Safety

variable {s t : State}

/-! ### The lanes -/

theorem vectorInv_congr (data : t.data = s.data) (params : t.params = s.params) (h : VectorInv s) : VectorInv t := by
  rwa [VectorInv, data, params]

theorem vectorInv_planarBatch (h : VectorInv s) : VectorInv (planarBatch s) := by
  obtain ⟨_, _, _, vi, _, ft⟩ := h
  exact ⟨planarGain_length s 0, planarGain_length s 1, planarGain_length s 2, vi, by simp [planarBatch], ft⟩

theorem vectorInv_interleavedBatch (h : VectorInv s) : VectorInv (interleavedBatch s) := by
  obtain ⟨vr, vg, vb, _, _, ft⟩ := h
  exact ⟨vr, vg, vb, interleavedGain_length ft, by simp [interleavedBatch, interleavedLoad, ft], ft⟩

/-- A run that is over leaves N free values in each vector (R47, R48). -/
theorem vectorInv_unspecifyRun (s : State) : VectorInv s.unspecifyRun := by
  simp [VectorInv, State.unspecifyRun, freeBytes, freeHalves]

theorem vectorInv_beginRun (h : VectorInv s) : VectorInv (beginRun s) := by
  obtain ⟨vr, vg, vb, vi, w, ft⟩ := h
  unfold beginRun
  cases strategy : s.params.strategy with
  | planar => exact ⟨vr, vg, vb, vi, w, ft⟩
  | interleaved => exact ⟨vr, vg, vb, vi, w, factorTable_length _ _⟩

/-- A batch writes N lanes, a run's end and a reset replace every vector, START builds FT, and no other move touches the
datapath. -/
theorem Move.keeps_vectorInv (h : Move s t) (hi : VectorInv s) : VectorInv t := by
  cases h with
  | reset => simp [VectorInv, applyReset, Datapath.atReset]
  | batch =>
    unfold runBatch
    split
    · exact vectorInv_planarBatch hi
    · exact vectorInv_interleavedBatch hi
  | memError => exact vectorInv_congr rfl rfl (vectorInv_unspecifyRun _)
  | finish => exact vectorInv_congr rfl rfl (vectorInv_unspecifyRun s)
  | stay => exact hi
  | access _ _ plain => exact vectorInv_congr plain.data plain.params hi
  | skip | error => exact hi
  | start => exact vectorInv_beginRun hi

/-! ### The run -/

/-- Only a batch goes on with a run, only START begins one, and every other move leaves the block IDLE. -/
theorem Move.keeps_runInv (h : Move s t) (wf : s.mem.wf = true) (hi : s.seq.state = .run → RunInv s)
    (run : t.seq.state = .run) : RunInv t := by
  cases h with
  | reset | memError | finish | error => cases run
  | batch running _ more => exact runInv_runBatch (hi running) wf more
  | stay idle => exact hi run
  | access idle _ plain =>
    rw [plain.seq] at run
    exact absurd (run.symm.trans idle) (by decide)
  | skip idle => exact absurd (run.symm.trans idle) (by decide)
  | start _ _ shape range => exact runInv_beginRun shape range

/-! ### The whole invariant -/

theorem Move.keeps_inv (h : Move s t) (hi : Inv s) : Inv t where
  build := h.params_eq ▸ hi.build
  status := h.keeps_statusInv hi.status
  factor := h.keeps_factorInv hi.factor
  wait := h.keeps_waitInv hi.wait
  vectors := h.keeps_vectorInv hi.vectors
  memory := h.keeps_memoryInv hi.memory
  run := h.keeps_runInv hi.memory.1 hi.run

/-- No part of the invariant speaks of the platform's schedule. -/
theorem inv_withInputs (h : Inv s) (inputs : List Input) : Inv { s with inputs := inputs } :=
  { h with
    build := h.build
    run := fun run => { h.run run with table := (h.run run).table } }

/-- Settles O58: each part of the invariant is kept by every move. -/
theorem stepKeepsInvariant : Obligations.StepKeepsInvariant :=
  fun _ _ hi h => (step_move h).keeps_inv (inv_withInputs hi _)

end Sys2Proof.Machine
end

section
/-! PROOFS. A START that nothing disturbs, from its first batch to the end of its run: the half-done image, kept from
batch to batch, is the whole AdjustMap where the loop test ends the run (R216, R250, R284). -/

namespace Sys2Proof.Machine

open Sys2Proof.Safety

variable {s : State}

/-! ### What the batches of a run leave alone -/

theorem runBatch_iterate_host (s : State) (n : Nat) : (runBatch^[n] s).host = s.host := by
  induction n with
  | zero => rfl
  | succ n ih => rw [Function.iterate_succ_apply', runBatch_host, ih]

theorem runBatch_iterate_startMem (s : State) (n : Nat) : (runBatch^[n] s).startMem = s.startMem := by
  induction n with
  | zero => rfl
  | succ n ih => rw [Function.iterate_succ_apply', runBatch_startMem, ih]

/-- Each batch is one record of the trace (log 15). -/
theorem runBatch_iterate_trace_length (s : State) (n : Nat) :
    (runBatch^[n] s).trace.length = s.trace.length + n := by
  have once (u : State) : (runBatch u).trace.length = u.trace.length + 1 := by
    unfold runBatch
    split <;> exact List.length_append
  induction n with
  | zero => rfl
  | succ n ih => rw [Function.iterate_succ_apply', once, ih, Nat.add_assoc]

/-! ### The end of the run -/

/-- After its last batch a quiet run is at its loop bound. -/
theorem QuietRun.ended (h : QuietRun s) (start : s.seq.pos = 0) :
    runEnd (Machine.runBatch^[batchCount s] s) ≤ (Machine.runBatch^[batchCount s] s).seq.pos := by
  have made := h.iterate (batchCount s)
  rw [made.runEnd_eq, made.pos, start, Nat.zero_add]
  exact le_ceilDiv_mul _ (batchAdvance_pos h.build)

/-- The batches of a quiet run that begins in its invariant make the AdjustMap of the memory it found (R216, R250). -/
theorem QuietRun.adjusts (h : QuietRun s) (start : s.seq.pos = 0) (begun : RunInv s) (wf : s.mem.wf = true) :
    (Machine.runBatch^[batchCount s] s).mem.wf = true ∧
      ∀ a, (Machine.runBatch^[batchCount s] s).mem.read a =
        adjustMap s.startMem (imageBase s) (bufferLen s) s.csr.factor a := by
  obtain ⟨inv, canonical⟩ := h.iterate_induction (P := fun u => RunInv u ∧ u.mem.wf = true) start ⟨begun, wf⟩
    fun u quiet more ⟨hu, hwf⟩ => ⟨runInv_runBatch hu hwf more, runBatch_wf hwf quiet.range more⟩
  have csr := (h.iterate (batchCount s)).csr
  refine ⟨canonical, fun a => ?_⟩
  rw [inv.image a, doneBytes_of_ended inv (h.ended start), runBatch_iterate_startMem, imageBase, bufferLen, csr]
  rfl

/-- A START that nothing disturbs ends as RunEnds says, under either strategy (R279, R284). -/
theorem runEnds_of_startable (h : Startable s) (wf : s.mem.wf = true) (quiet : s.inputs = []) :
    RunEnds s (finishRun (runBatch^[batchCount s] (runBegun s))) (batchCount s) := by
  have run := quietRun_of_startable h quiet
  have made := run.iterate (batchCount s)
  have host := runBatch_iterate_host (runBegun s) (batchCount s)
  obtain ⟨canonical, adjusted⟩ := run.adjusts rfl (runInv_beginRun h.shape h.range) wf
  exact {
    memory := adjusted
    canonical := canonical
    csr := by
      rw [finishRun_csr, made.csr]
      exact congrArg (fun w => { s.csr with status := w }) (by decide : withDone clearedStatus = 0x00000001#32)
    idle := rfl
    wait := rfl
    responses := by rw [finishRun_host, host]; rfl
    queue := by rw [finishRun_host, host]; rfl
    params := made.params
    batches := runBatch_iterate_trace_length (runBegun s) (batchCount s) }

/-- A START that nothing disturbs runs to its end in `batchCount` batches and the loop test, under either strategy. -/
theorem startable_runs_to_adjustMap (h : Startable s) (wf : s.mem.wf = true) (quiet : s.inputs = []) :
    ∃ t u, exec .start s = .next t ∧ t.seq.state = .run ∧ core.run (batchCount s + 1) t = .next u ∧
      RunEnds s u (batchCount s) :=
  ⟨_, _, exec_start_of_startable h, rfl, run_to_end_of_startable h quiet, runEnds_of_startable h wf quiet⟩

/-- A planar run of the pixels of its image makes one batch for each N of them (R351). -/
theorem batchCount_of_planar (h : Startable s) (planar : s.params.strategy = .planar) :
    batchCount s = ceilDiv (s.csr.width.toNat * s.csr.height.toNat) s.params.lanes := by
  obtain ⟨advance, _, _⟩ := batch_of_planar planar
  rw [batchCount, advance, runEnd_of_planar planar, h.shape, Nat.mul_div_cancel_left _ (by decide)]

/-- Settles O41: the run of either strategy, with the planar count of its batches. -/
theorem planarStartRunsToAdjustMap : Obligations.PlanarStartRunsToAdjustMap := by
  intro s h planar wf quiet
  rw [← batchCount_of_planar h planar]
  exact startable_runs_to_adjustMap h wf quiet

end Sys2Proof.Machine
end

section
/-! PROOFS. One planar batch (43_planar.md R211 to R215): memory, the lane groups and seq.pos after it. -/

namespace Sys2Proof.Machine

open Sys2Proof.Safety

/-- Settles O31: the step is `planarBatch`; memory is `planarBatch_read`, and each lane group `planarGain_getD`. -/
theorem planarBatchStep : Obligations.PlanarBatchStep := by
  intro s running wf planar more
  have step_eq := step_of_running_more running (by rwa [runEnd_of_planar planar])
  rw [runBatch_of_planar (s := { s with inputs := s.inputs.tail }) planar] at step_eq
  have lane {c j : Nat} (hc : c < 3) (hj : j < min s.params.lanes (bufferLen s / 3 - s.seq.pos)) :
      (planarGain s c).getD j 0 =
        gain (s.mem.read (imageBase s + 3 * (s.seq.pos + j) + c)) (factorField s.csr.factor c) := by
    refine (planarGain_getD hc hj).trans ?_
    rw [show planarBase s + (3 * j + c) = imageBase s + 3 * (s.seq.pos + j) + c by unfold planarBase; omega]
    rfl
  refine ⟨_, step_eq, congrArg (Seq.mk · _) running.run, fun x => ?_, fun j hj => ?_, rfl, rfl, rfl, rfl, rfl⟩
  · refine (planarBatch_read (s := s) wf running.range more x).trans (if_congr ?_ rfl rfl)
    simp only [planarBase, planarActive, activeCount, pixelCount]
    omega
  · exact ⟨lane (by decide) hj, lane (by decide) hj, lane (by decide) hj⟩

end Sys2Proof.Machine
end

section
/-! PROOFS. The interleaved strategy (44_interleaved.md R240 to R251): the factor table at an offset of whole pixels, one
iteration against it, and the whole run. -/

namespace Sys2Proof.Machine

open Sys2Proof.Safety

variable {s : State}

/-! ### The whole run -/

/-- An interleaved run makes one iteration for each stride of its buffer (R251). -/
theorem batchCount_of_interleaved (interleaved : s.params.strategy = .interleaved) :
    batchCount s = ceilDiv (bufferLen s) (alignedStride s.params.lanes) := by
  obtain ⟨advance, _, _⟩ := batch_of_interleaved interleaved
  rw [batchCount, advance, runEnd_of_interleaved interleaved]

/-- Settles O42: the run of either strategy, with the interleaved count of its batches. -/
theorem interleavedStartRunsToAdjustMap : Obligations.InterleavedStartRunsToAdjustMap := by
  intro s h interleaved wf quiet
  rw [← alignedStride, ← batchCount_of_interleaved interleaved]
  exact startable_runs_to_adjustMap h wf quiet

/-! ### The factor table -/

/-- A lane below the stride holds the factor of its own channel at every offset of whole pixels (R249). -/
theorem factorTable_getD_of_lt_stride {n o i : Nat} (w : Word) (pixels : 3 ∣ o) (below : i < alignedStride n) :
    (factorTable n w).getD i 0 = factorField w ((o + i) % 3) := by
  rw [factorTable_getD (below.trans_le (alignedStride_le n)), if_pos below, show (o + i) % 3 = i % 3 by omega]

/-- A lane from the stride on holds the identity factor (R241). -/
theorem factorTable_getD_of_stride_le {n i : Nat} (w : Word) (lane : i < n) (past : alignedStride n ≤ i) :
    (factorTable n w).getD i 0 = 64 := by
  rw [factorTable_getD lane, if_neg past.not_gt]

/-- At most two lanes lie past the stride (R240). -/
theorem lt_alignedStride_add_three (n : Nat) : n < alignedStride n + 3 :=
  Nat.lt_div_mul_add (by decide)

/-- Settles O30: the lanes below the stride, those past it, and how many those are. -/
theorem factorTableIsAligned : Obligations.FactorTableIsAligned := by
  intro n o i w pixels lane
  refine ⟨factorTable_getD_of_lt_stride w pixels, fun past v => ?_, lt_alignedStride_add_three n⟩
  rw [factorTable_getD_of_stride_le w lane past, gain_identity]

/-! ### One iteration -/

/-- Settles O32: the step is `interleavedBatch`; memory is `interleavedBatch_read_of_table`, and VI `interleavedGain_getD`. -/
theorem interleavedBatchStep : Obligations.InterleavedBatchStep := by
  intro s running wf interleaved more table pixels
  have step_eq := step_of_running_more running (by rwa [runEnd_of_interleaved interleaved])
  rw [runBatch_of_interleaved (s := { s with inputs := s.inputs.tail }) interleaved] at step_eq
  have lanes : s.data.ft.length = s.params.lanes := by rw [table, factorTable_length]
  exact ⟨_, step_eq, congrArg (Seq.mk · _) running.run,
    interleavedBatch_read_of_table (s := s) wf running.range more table pixels,
    fun i hi => interleavedGain_getD (s := s) lanes hi, rfl, rfl, rfl, rfl, rfl, rfl, rfl⟩

end Sys2Proof.Machine
end

section
/-! PROOFS. The two commands (45_commands.md R270 to R278): what each can answer, what it leaves alone, and the step
of a host write to CMD. -/

namespace Sys2Proof.Machine

open Sys2Proof.Safety

variable {s t : State}

/-! ### The error entry -/

/-- Outside a run, with no write outstanding, an error changes STATUS alone (R276). -/
theorem raiseError_of_idle (idle : s.seq.state = .idle) (free : s.host.wait = false) (c : ErrCode) :
    raiseError c s = s.setStatus (errorStatus c) := by
  rw [raiseError_eq, ← idle, ← free]
  rfl

/-! ### What START answers -/

/-- START with the wrong shape (R275). -/
theorem exec_start_of_shape_mismatch (shape : bufferLen s ≠ 3 * pixelProduct s) :
    exec .start s = .next (raiseError .shapeMismatch s) :=
  if_pos shape

/-- START past the top of memory (R277). -/
theorem exec_start_of_past_top (shape : bufferLen s = 3 * pixelProduct s) (past : 2 ^ 32 < imageBase s + bufferLen s) :
    exec .start s = .next (raiseError .addrRange s) :=
  (if_neg (not_not.2 shape)).trans (if_pos past)

/-- A START whose checks pass answers a run begun, if it answers at all (R278). -/
theorem eq_runBegun_of_exec_start (shape : bufferLen s = 3 * pixelProduct s)
    (range : imageBase s + bufferLen s ≤ 2 ^ 32) (h : exec .start s = .next t) : t = runBegun s := by
  rcases execStart_cases (s := s) h with ⟨hs, _⟩ | ⟨_, hr, _⟩ | ⟨_, _, ⟨_, _, ho⟩ | ⟨_, ho⟩⟩
  · exact absurd shape hs
  · exact absurd range (Nat.not_le.2 hr)
  · cases ho
  · cases ho
    rfl

/-- Every next state of a command: NOP's, an error's, or a run begun (R271, R275, R277, R278). -/
theorem exec_next_cases {i : Instr} (h : exec i s = .next t) :
    t = s ∨ (∃ c, t = raiseError c s) ∨ t = runBegun s := by
  cases i with
  | nop =>
    cases h
    exact .inl rfl
  | start =>
    by_cases shape : bufferLen s = 3 * pixelProduct s
    · rcases Nat.lt_or_ge (2 ^ 32) (imageBase s + bufferLen s) with past | range
      · rw [exec_start_of_past_top shape past] at h
        cases h
        exact .inr (.inl ⟨_, rfl⟩)
      · exact .inr (.inr (eq_runBegun_of_exec_start shape range h))
    · rw [exec_start_of_shape_mismatch shape] at h
      cases h
      exact .inr (.inl ⟨_, rfl⟩)

/-! ### The datapath of a run begun -/

/-- Under PLANAR a START touches no datapath register (R278). -/
theorem runBegun_data_of_planar (planar : s.params.strategy = .planar) : (runBegun s).data = s.data := by
  simp [runBegun, beginRun, planar]

/-- Under INTERLEAVED a START builds FT and touches no other datapath register (R241, R278). -/
theorem runBegun_data_of_interleaved (interleaved : s.params.strategy = .interleaved) :
    (runBegun s).data = { s.data with ft := factorTable s.params.lanes s.csr.factor } := by
  simp [runBegun, beginRun, interleaved]

/-- FT is the one datapath register START writes, under either strategy. -/
theorem runBegun_data (s : State) : ∃ ft, (runBegun s).data = { s.data with ft := ft } := by
  cases strategy : s.params.strategy with
  | planar => exact ⟨s.data.ft, runBegun_data_of_planar strategy⟩
  | interleaved => exact ⟨_, runBegun_data_of_interleaved strategy⟩

/-! ### The obligations on the commands -/

/-- Settles O10: the next state is `runBegun`, and its table `factorTable`. -/
theorem startEntersRun : Obligations.StartEntersRun := by
  intro s h
  refine ⟨runBegun s, exec_start_of_startable h, rfl, rfl, rfl, rfl, rfl, rfl, rfl, rfl, runBegun_data_of_planar,
    fun interleaved => ?_⟩
  rw [runBegun_data_of_interleaved interleaved]
  exact ⟨rfl, factorTable_length _ _, fun i hi => factorTable_getD hi⟩

/-- Settles O11: an error writes no register but STATUS, and a run begun no datapath register but FT. -/
theorem commandFrame : Obligations.CommandFrame := by
  intro i s t h
  rcases exec_next_cases h with rfl | ⟨c, rfl⟩ | rfl
  · simp
  · simp
  · obtain ⟨ft, data⟩ := runBegun_data s
    rw [data]
    exact ⟨rfl, rfl, rfl, rfl, rfl, fun _ => rfl, rfl, rfl, rfl, rfl, rfl, rfl, rfl, rfl, rfl, rfl, rfl, rfl⟩

/-- Settles O6: 0 is the encoding of NOP, whose meaning is to skip. -/
theorem nopChangesNothing : Obligations.NopChangesNothing :=
  ⟨decode_encode .nop, fun _ => rfl⟩

/-- Settles O8: the shape is the first check; `raiseError` is the three writes, with 0x12 for this error. -/
theorem startShapeMismatch : Obligations.StartShapeMismatch :=
  fun _ shape => exec_start_of_shape_mismatch shape

/-- Settles O9: the range is the second check, with 0x32 for its error; past both checks STATUS is clear. -/
theorem startAddrRange : Obligations.StartAddrRange := by
  intro s shape
  refine ⟨exec_start_of_past_top shape, fun range => ⟨fun k hk => by omega, fun t h => ?_⟩⟩
  rw [eq_runBegun_of_exec_start shape range h]
  rfl

/-! ### A host write to CMD -/

/-- The step of a host write to CMD is `execute(decode(w))` (R34, R270). -/
theorem step_of_cmdWrite {w : Word} {rest : List HostOp} (h : NextOp s (.write (regAddr s.params .cmd) .word w) rest) :
    step s = writeCmd w (taken s rest) := by
  have target : accessTarget (taken s rest).params (regAddr s.params .cmd) .word = .register .cmd :=
    accessTarget_regAddr h.build .cmd
  rw [step_of_nextOp h, hostOp, hostWrite, target]

/-- Settles O5: the decoder has answered the command, and `completeCommand` decides by host.wait. -/
theorem stepRunsDecodedCommand : Obligations.StepRunsDecodedCommand := by
  intro s w rest i h decoded
  have step_eq : step s = completeCommand (exec i (taken s rest)) := by rw [step_of_cmdWrite h, writeCmd, decoded]
  exact ⟨step_eq, fun t executed => by rw [step_eq, executed, completeCommand]⟩

/-- Settles O7: the decoder rejects the word, and the host does not wait after an error. -/
theorem illegalWordRaisesIllegalCmd : Obligations.IllegalWordRaisesIllegalCmd := by
  intro s w rest h notNop notStart
  obtain ⟨e, rejected⟩ := (decodeIsTotalAndThreeWay w).2.2 notNop notStart
  have illegal : illegalCommand (taken s rest) = (taken s rest).setStatus 0x00000022#32 :=
    raiseError_of_idle (s := taken s rest) h.idle h.free .illegalCmd
  have free : ¬((taken s rest).setStatus 0x00000022#32).host.wait = true := ne_true_of_eq_false h.free
  rw [step_of_cmdWrite h, writeCmd, rejected, illegal]
  exact congrArg _ (if_neg free)

end Sys2Proof.Machine
end

section
/-! PROOFS. How a START's run ends (45_commands.md R279, R284, R285, R288): at the loop test, at once for an empty image,
at a memory error, and alike under any two builds. -/

namespace Sys2Proof.Machine

open Sys2Proof.Safety

variable {s : State}

/-! ### The loop test -/

/-- DONE alone is what a run's end makes of the STATUS word START cleared (R274, R279). -/
theorem withDone_clearedStatus : withDone clearedStatus = 0x00000001#32 := by decide

/-- Settles O35: the step is `finishRun`. -/
theorem loopEndCompletesStart : Obligations.LoopEndCompletesStart := by
  intro s running ended clear
  have step_eq : step s = .next (finishRun { s with inputs := s.inputs.tail }) :=
    (step_of_running running).trans
      (congrArg _ (sequencerStep_of_ended (s := { s with inputs := s.inputs.tail }) ended false))
  refine ⟨_, step_eq, rfl, ?_, rfl, rfl, rfl, rfl⟩
  rw [finishRun_csr, show s.csr.status = clearedStatus from clear, withDone_clearedStatus]

/-! ### An empty image -/

/-- An empty buffer passes both checks and meets no span, so it is never refused (R285; log 11). -/
theorem startable_of_empty (build : legalBuild s.params = true) (empty : bufferLen s = 0)
    (noPixels : 3 * (s.csr.width.toNat * s.csr.height.toNat) = 0) : Startable s where
  build := build
  shape := empty.trans noPixels.symm
  range := by
    have := s.csr.imgBase.isLt
    rw [empty, imageBase]
    omega
  buffer := by
    have noByte (d : Span) : ¬HoldsBufferByte s d := by
      rintro ⟨a, low, high, _⟩
      omega
    have meetsNone (l : List Span) : ¬spanMeetsAny (bufferSpan s) l = true := by
      rw [bufferMeetsAny_iff]
      exact fun ⟨d, _, holds⟩ => noByte d holds
    rw [startRefusal_of_clear (noByte _) (fun ⟨d, _, holds⟩ => noByte d holds),
      if_neg fun ⟨_, meets⟩ => meetsNone _ meets]

/-- The loop bound of an empty buffer is 0 under either strategy (R283). -/
theorem runEnd_of_empty (empty : bufferLen s = 0) : runEnd s = 0 := by
  cases strategy : s.params.strategy with
  | planar => rw [runEnd_of_planar strategy, empty]
  | interleaved => rw [runEnd_of_interleaved strategy, empty]

/-- Settles O45: the run begun is at its loop bound already, so its first step is the loop test. -/
theorem emptyImageCompletes : Obligations.EmptyImageCompletes := by
  intro s build empty noPixels quiet
  have start := startable_of_empty build empty noPixels
  have ended : runEnd (runBegun s) ≤ (runBegun s).seq.pos := (runEnd_of_empty (s := runBegun s) empty).le
  have step_eq : step (runBegun s) = .next (finishRun (runBegun s)) := by
    rw [(quietRun_of_startable start quiet).step_eq, sequencerStep_of_ended ended]
  refine ⟨runBegun s, _, exec_start_of_startable start, rfl, fun interleaved => ?_, step_eq, withDone_clearedStatus,
    rfl, rfl, rfl, rfl⟩
  rw [runBegun_data_of_interleaved interleaved]

/-! ### A memory error -/

/-- In a run that something stopped each byte of the buffer is old or adjusted (R288, R342). -/
theorem mixedMemory_read_buffer (wf : s.mem.wf = true) (range : imageBase s + bufferLen s ≤ 2 ^ 32) {k : Nat}
    (hk : k < bufferLen s) :
    (mixedMemory s).read (imageBase s + k) = s.startMem.read (imageBase s + k) ∨
      (mixedMemory s).read (imageBase s + k) = adjustedByte s.startMem (imageBase s) s.csr.factor k := by
  rw [(mixedMemory_spec wf range).2, if_pos (by omega), Nat.add_sub_cancel_left]
  split
  · exact .inr rfl
  · exact .inl rfl

/-- Stopping a run leaves every byte outside the buffer as it was (R288, R342). -/
theorem mixedMemory_read_outside (wf : s.mem.wf = true) (range : imageBase s + bufferLen s ≤ 2 ^ 32) {a : Nat}
    (outside : a < imageBase s ∨ imageBase s + bufferLen s ≤ a) : (mixedMemory s).read a = s.mem.read a := by
  rw [(mixedMemory_spec wf range).2, if_neg (by omega)]

/-- The step of a run with a batch left whose access gets an error response (R99, R288). -/
theorem step_of_memError (build : legalBuild s.params = true) (run : s.seq.state = .run)
    (range : imageBase s + bufferLen s ≤ 2 ^ 32) (more : s.seq.pos < runEnd s)
    (error : s.inputs.head? = some .memError) :
    step s = .next (memErrorStop { s with inputs := s.inputs.tail }) := by
  obtain ⟨rest, inputs⟩ := List.head?_eq_some_iff.1 error
  have inMemory : ¬runInMemory s = false := by simpa [runInMemory, run] using range
  have stops : sequencerStep true { s with inputs := rest } = memErrorStop { s with inputs := rest } :=
    (if_pos more).trans (if_pos rfl)
  rw [step, systemStep, if_neg (by simp [build]), if_neg inMemory, inputStep, inputs]
  simp only [agentStep, run, stops, List.tail_cons]

/-- Settles O37: the step is `memErrorStop`, whose memory is `mixedMemory`. -/
theorem memErrorStopsRun : Obligations.MemErrorStopsRun := by
  intro s build run range wf more error
  exact ⟨_, step_of_memError build run range more error, rfl, rfl, rfl, rfl,
    fun k hk => mixedMemory_read_buffer (s := { s with inputs := s.inputs.tail }) wf range hk,
    fun a outside => mixedMemory_read_outside (s := { s with inputs := s.inputs.tail }) wf range outside⟩

/-! ### Any two builds -/

/-- Two completed STARTs of the same registers and memory end with the same memory: both hold its AdjustMap (R284). -/
theorem mem_eq_of_runEnds {s s' u u' : State} {n n' : Nat} (h : RunEnds s u n) (h' : RunEnds s' u' n')
    (csr : s.csr = s'.csr) (mem : s.mem = s'.mem) : u.mem = u'.mem :=
  Memory.ext h.canonical h'.canonical fun a => by rw [h.memory, h'.memory, mem, imageBase, bufferLen, csr]; rfl

/-- Settles O43: each build runs to its own end, whatever its batches, and both ends are those of `RunEnds`. -/
theorem buildsAreEquivalent : Obligations.BuildsAreEquivalent := by
  intro s s' start start' csr mem wf quiet quiet'
  obtain ⟨t, u, began, _, ran, ends⟩ := startable_runs_to_adjustMap start wf quiet
  obtain ⟨t', u', began', _, ran', ends'⟩ := startable_runs_to_adjustMap start' (mem ▸ wf) quiet'
  refine ⟨t, u, t', u', began, ran, began', ran', mem_eq_of_runEnds ends ends' csr mem, ?_, ?_,
    fun k hk => ?_, fun a outside => ?_⟩
  · rw [ends.csr, ends'.csr, csr]
  · rw [ends.csr]
  · rw [ends.memory, adjustMap, if_pos (by omega), Nat.add_sub_cancel_left, adjustedByte]
  · rw [ends.memory, adjustMap, if_neg (by omega)]

end Sys2Proof.Machine
end

section
/-! PROOFS. Reset (70_reset_and_hazards.md R340 to R342): the state after it, and the step of the reset input outside a run
and during one. -/

namespace Sys2Proof.Machine

open Sys2Proof.Safety

variable {s : State}

/-! ### The reset input -/

/-- The step of the reset input, whichever agent's move it would have been (R340). -/
theorem step_of_reset (build : legalBuild s.params = true) (inMemory : runInMemory s = true)
    (reset : s.inputs.head? = some .reset) : step s = .next (applyReset { s with inputs := s.inputs.tail }) := by
  obtain ⟨rest, inputs⟩ := List.head?_eq_some_iff.1 reset
  rw [step, systemStep, if_neg (by simp [build]), if_neg (by simp [inMemory]), inputStep, inputs]
  rfl

/-- Outside a run the reset input leaves memory alone (R341). -/
theorem applyReset_mem_of_idle (idle : s.seq.state = .idle) : (applyReset s).mem = s.mem := by
  simp [applyReset, idle]

/-- During a run the reset input leaves the memory of a run that something stopped (R342). -/
theorem applyReset_mem_of_run (run : s.seq.state = .run) : (applyReset s).mem = mixedMemory s := by
  simp [applyReset, run]

/-- Settles O40: the step is `applyReset`, whose memory is `mixedMemory`. -/
theorem resetDuringRun : Obligations.ResetDuringRun := by
  intro s build run range wf reset
  have inMemory : runInMemory s = true := by simpa [runInMemory, run] using range
  have mem := applyReset_mem_of_run (s := { s with inputs := s.inputs.tail }) run
  refine ⟨_, step_of_reset build inMemory reset, rfl, rfl, rfl, rfl, fun k hk => ?_, fun a outside => ?_⟩
  · rw [mem]
    exact mixedMemory_read_buffer (s := { s with inputs := s.inputs.tail }) wf range hk
  · rw [mem]
    exact mixedMemory_read_outside (s := { s with inputs := s.inputs.tail }) wf range outside

/-- Settles O39: the step is `applyReset`, and no run is there to stop. -/
theorem resetInputOutsideRun : Obligations.ResetInputOutsideRun := by
  intro s build idle reset
  have inMemory : runInMemory s = true := by simp [runInMemory, idle]
  exact ⟨_, step_of_reset build inMemory reset, rfl, rfl, rfl, rfl,
    applyReset_mem_of_idle (s := { s with inputs := s.inputs.tail }) idle, rfl⟩

/-! ### The state after reset -/

/-- Settles O38: each value is the field of `State.resetOf`. -/
theorem resetValues : Obligations.ResetValues :=
  fun _ => ⟨rfl, rfl, rfl, rfl, rfl, rfl, rfl, rfl, rfl⟩

/-- The lane vectors and FT of a build of N lanes have N lanes from reset on (R47, R48). -/
theorem vectorInv_resetOf (p : Params) : VectorInv (State.resetOf p) := by
  simp [VectorInv, State.resetOf, Datapath.atReset]

/-- After reset STATUS is clear, FACTOR is the identity's word, no run is in progress and memory is empty (R341). -/
theorem inv_resetOf {p : Params} (build : legalBuild p = true) : Inv (State.resetOf p) where
  build := build
  status := statusInv_of_idle (show legalStatus Csr.atReset.status = true by decide) rfl
  factor := factorInv_of_stored storedFactor_atReset.symm
  wait := by simp [WaitInv, State.resetOf, HostPort.atReset, Seq.atReset]
  vectors := vectorInv_resetOf p
  memory := ⟨rfl, rfl⟩
  run := fun run => by cases run

/-- Settles O52: the reference build of `State.reset` is a legal build. -/
theorem resetMeetsInvariant : Obligations.ResetMeetsInvariant :=
  have legal : legalBuild Params.reference = true := by decide
  ⟨fun _ build => inv_resetOf build, inv_resetOf legal⟩

end Sys2Proof.Machine
end
